-- ==== Sys2Proof/Word.lean ====
section
/-! DEFINITION. The machine's words and instruction fields (spec/00_scope.md R9, spec/30_encoding.md R80, R81). -/

namespace Sys2Proof

/-- A word: 12 bits, bit 0 the least significant (R9).  Addresses are words; `+` and `-` on them are
the spec's `+12` and `-12`, which wrap modulo 4096 (R11). -/
abbrev Word := BitVec 12

/-- The 6-bit function code `F` and execution field `E` of a first word (R80). -/
abbrev Field := BitVec 6

/-- A 3-bit bank number: the `X` field of an instruction (R81) or the contents of a bank-select register (R27). -/
abbrev BankNo := BitVec 3

end Sys2Proof
end

