-- ==== Sys2Proof/Syntax.lean ====
section
/-! DEFINITION. The instructions: one constructor per mnemonic of spec/opcode_table.json (spec/30_encoding.md R95),
and the names under which a sequence of words is rejected. -/

namespace Sys2Proof

/-- An instruction with its operand fields.  `e` is `E`, `x` is `X`, `g` is the second word `G` (R80 to R82).
NOP keeps its ignored `X` and HLT its `E` (00 or 77), so that each of their words is a term; their effects do not
depend on them (R98; log entry 9). -/
inductive Instr where
  -- loads (spec/41_load.md)
  | ldn (e : Field)
  | lcn (e : Field)
  | ldd (e : Field)
  | ldi (e : Field)
  | ldm (g : Word)
  | ldf (e : Field)
  | ldc (g : Word)
  | ldb (e : Field)
  -- jumps (spec/42_jump.md)
  | zjf (e : Field)
  | nzf (e : Field)
  | pjf (e : Field)
  | njf (e : Field)
  | zjb (e : Field)
  | nzb (e : Field)
  | pjb (e : Field)
  | njb (e : Field)
  | jpi (e : Field)
  | jfi (e : Field)
  -- control (spec/43_control.md)
  | nop (x : BankNo)
  | hlt (e : Field)
  | cil
  -- bank and P setters (spec/44_bank.md)
  | srj (x : BankNo)
  | sic (x : BankNo)
  | irj (x : BankNo)
  | sdc (x : BankNo)
  | drj (x : BankNo)
  | sid (x : BankNo)
  | acj (x : BankNo)
  | sbu (x : BankNo)
  deriving DecidableEq, Repr

/-- Why the decoder rejects a sequence of words. -/
inductive Reject where
  | noWord                        -- the sequence is empty
  | reserved (w : Word)           -- a first word that names no instruction (R96)
  | missingSecondWord (w : Word)  -- 2100 or 2200 with no word after it (R82)
  deriving DecidableEq, Repr

end Sys2Proof
end

