-- ==== Sys2Proof/WellFormed.lean ====
section
/-! DEFINITION. Which terms of `Instr` stand for a word of spec/30_encoding.md R95: the restrictions on `E` and `X`. -/

namespace Sys2Proof

/-- The operand restrictions of R95: `E` is not 00 in LDI, LDF, LDB (R90), JPI, JFI (R92); `X` is 1 to 7 in NOP (R87);
`E` is 00 or 77 in HLT (R93).  Every other operand takes every value of its field. -/
def Instr.wf : Instr → Bool
  | .ldi e | .ldf e | .ldb e | .jpi e | .jfi e => e != 0
  | .nop x => x != 0
  | .hlt e => e == 0o00 || e == 0o77
  | .ldn _ | .lcn _ | .ldd _ | .ldm _ | .ldc _
  | .zjf _ | .nzf _ | .pjf _ | .njf _ | .zjb _ | .nzb _ | .pjb _ | .njb _
  | .cil | .srj _ | .sic _ | .irj _ | .sdc _ | .drj _ | .sid _ | .acj _ | .sbu _ => true

end Sys2Proof
end

