-- ==== Sys2Proof/Decode.lean ====
section
/-! DEFINITION. The decoder, the encoder and the opcode table (spec/30_encoding.md R80 to R99, spec/opcode_table.json). -/

namespace Sys2Proof

/-- `F = w[11:6]` (R80). -/
def fieldF (w : Word) : Field := w.extractLsb' 6 6

/-- `E = w[5:0]` (R80). -/
def fieldE (w : Word) : Field := w.extractLsb' 0 6

/-- `S = E[5:3]` (R81). -/
def fieldS (w : Word) : BitVec 3 := w.extractLsb' 3 3

/-- `X = E[2:0]` (R81). -/
def fieldX (w : Word) : BankNo := w.extractLsb' 0 3

/-- Length determination (R83): two words if and only if the first word is exactly 2100 or 2200. -/
def isTwoWord (w : Word) : Bool := w == 0o2100#12 || w == 0o2200#12

/-- The `E` != 00 restriction of R95: with `E` = 00 the word is reserved. -/
def withNonZero (e : Field) (mk : Field → Instr) : Option Instr :=
  if e = 0 then none else some (mk e)

/-- Function code 00 (R87), decoded by `S` and `X`; 0000 is reserved. -/
def decodeBankGroup (s : BitVec 3) (x : BankNo) : Option Instr :=
  match s with
  | 0 => if x = 0 then none else some (.nop x)
  | 1 => some (.srj x)
  | 2 => some (.sic x)
  | 3 => some (.irj x)
  | 4 => some (.sdc x)
  | 5 => some (.drj x)
  | 6 => some (.sid x)
  | 7 => some (.acj x)

/-- The tests of R99 after the exact words, by `F` (R87 to R94); every function code not listed is reserved. -/
def decodeByF (w : Word) : Option Instr :=
  match fieldF w with
  | 0o00 => decodeBankGroup (fieldS w) (fieldX w)
  | 0o01 => if fieldS w = 4 then some (.sbu (fieldX w)) else none
  | 0o04 => some (.ldn (fieldE w))
  | 0o05 => some (.lcn (fieldE w))
  | 0o20 => some (.ldd (fieldE w))
  | 0o21 => withNonZero (fieldE w) .ldi
  | 0o22 => withNonZero (fieldE w) .ldf
  | 0o23 => withNonZero (fieldE w) .ldb
  | 0o60 => some (.zjf (fieldE w))
  | 0o61 => some (.nzf (fieldE w))
  | 0o62 => some (.pjf (fieldE w))
  | 0o63 => some (.njf (fieldE w))
  | 0o64 => some (.zjb (fieldE w))
  | 0o65 => some (.nzb (fieldE w))
  | 0o66 => some (.pjb (fieldE w))
  | 0o67 => some (.njb (fieldE w))
  | 0o70 => withNonZero (fieldE w) .jpi
  | 0o71 => withNonZero (fieldE w) .jfi
  | _ => none

/-- Decoding of a first word `w` (R99), `none` where it is reserved (R96).  `g` is the word after it, which only the
two-word instructions look at (R82). -/
def decodeFirst (w g : Word) : Option Instr :=
  if w = 0o0120#12 then some .cil
  else if w = 0o2100#12 then some (.ldm g)
  else if w = 0o2200#12 then some (.ldc g)
  else if w = 0o7700#12 ∨ w = 0o7777#12 then some (.hlt (fieldE w))
  else decodeByF w

/-- The decoder on a sequence of words, lowest address first: the instruction and the words after it, or a rejection
by name.  Total. -/
def decode : List Word → Except Reject (Instr × List Word)
  | [] => .error .noWord
  | w :: rest =>
    if isTwoWord w then
      match rest with
      | [] => .error (.missingSecondWord w)
      | g :: rest' =>
        match decodeFirst w g with
        | some i => .ok (i, rest')
        | none => .error (.reserved w)
    else
      match decodeFirst w 0 with
      | some i => .ok (i, rest)
      | none => .error (.reserved w)

/-- A first word from its two fields (R80). -/
def joinFE (f e : Field) : Word := f ++ e

/-- A first word of the function codes 00 and 01 from `F`, `S` and `X` (R81). -/
def joinFSX (f : Field) (s : BitVec 3) (x : BankNo) : Word := f ++ (s ++ x : BitVec 6)

/-- The words of an instruction (R95), the first at the lowest address. -/
def encode : Instr → List Word
  | .ldn e => [joinFE 0o04 e]
  | .lcn e => [joinFE 0o05 e]
  | .ldd e => [joinFE 0o20 e]
  | .ldi e => [joinFE 0o21 e]
  | .ldm g => [joinFE 0o21 0o00, g]
  | .ldf e => [joinFE 0o22 e]
  | .ldc g => [joinFE 0o22 0o00, g]
  | .ldb e => [joinFE 0o23 e]
  | .zjf e => [joinFE 0o60 e]
  | .nzf e => [joinFE 0o61 e]
  | .pjf e => [joinFE 0o62 e]
  | .njf e => [joinFE 0o63 e]
  | .zjb e => [joinFE 0o64 e]
  | .nzb e => [joinFE 0o65 e]
  | .pjb e => [joinFE 0o66 e]
  | .njb e => [joinFE 0o67 e]
  | .jpi e => [joinFE 0o70 e]
  | .jfi e => [joinFE 0o71 e]
  | .nop x => [joinFSX 0o00 0 x]
  | .hlt e => [joinFE 0o77 e]
  | .cil   => [joinFE 0o01 0o20]
  | .srj x => [joinFSX 0o00 1 x]
  | .sic x => [joinFSX 0o00 2 x]
  | .irj x => [joinFSX 0o00 3 x]
  | .sdc x => [joinFSX 0o00 4 x]
  | .drj x => [joinFSX 0o00 5 x]
  | .sid x => [joinFSX 0o00 6 x]
  | .acj x => [joinFSX 0o00 7 x]
  | .sbu x => [joinFSX 0o01 4 x]

/-- One row of spec/opcode_table.json: a word is the row's when `w && mask` is `pattern` and the row does not except
it; `build` reads the operands the row names, from the first word and the word after it. -/
structure OpcodeRow where
  mask    : Word
  pattern : Word
  except  : List Word
  build   : Word → Word → Instr

/-- Does the row name the word `w`? -/
def OpcodeRow.names (r : OpcodeRow) (w : Word) : Bool :=
  w &&& r.mask == r.pattern && !r.except.contains w

/-- The exact-word rows of the table. -/
def opcodeTableExact : List OpcodeRow :=
  [ ⟨0o7777, 0o0120, [], fun _ _ => .cil⟩
  , ⟨0o7777, 0o2100, [], fun _ g => .ldm g⟩
  , ⟨0o7777, 0o2200, [], fun _ g => .ldc g⟩
  , ⟨0o7777, 0o7700, [], fun w _ => .hlt (fieldE w)⟩
  , ⟨0o7777, 0o7777, [], fun w _ => .hlt (fieldE w)⟩ ]

/-- The rows of NOP and the bank and P setters. -/
def opcodeTableBank : List OpcodeRow :=
  [ ⟨0o7770, 0o0000, [0o0000], fun w _ => .nop (fieldX w)⟩
  , ⟨0o7770, 0o0010, [], fun w _ => .srj (fieldX w)⟩
  , ⟨0o7770, 0o0020, [], fun w _ => .sic (fieldX w)⟩
  , ⟨0o7770, 0o0030, [], fun w _ => .irj (fieldX w)⟩
  , ⟨0o7770, 0o0040, [], fun w _ => .sdc (fieldX w)⟩
  , ⟨0o7770, 0o0050, [], fun w _ => .drj (fieldX w)⟩
  , ⟨0o7770, 0o0060, [], fun w _ => .sid (fieldX w)⟩
  , ⟨0o7770, 0o0070, [], fun w _ => .acj (fieldX w)⟩
  , ⟨0o7770, 0o0140, [], fun w _ => .sbu (fieldX w)⟩ ]

/-- The rows of the one-word loads. -/
def opcodeTableLoad : List OpcodeRow :=
  [ ⟨0o7700, 0o0400, [], fun w _ => .ldn (fieldE w)⟩
  , ⟨0o7700, 0o0500, [], fun w _ => .lcn (fieldE w)⟩
  , ⟨0o7700, 0o2000, [], fun w _ => .ldd (fieldE w)⟩
  , ⟨0o7700, 0o2100, [0o2100], fun w _ => .ldi (fieldE w)⟩
  , ⟨0o7700, 0o2200, [0o2200], fun w _ => .ldf (fieldE w)⟩
  , ⟨0o7700, 0o2300, [0o2300], fun w _ => .ldb (fieldE w)⟩ ]

/-- The rows of the jumps. -/
def opcodeTableJump : List OpcodeRow :=
  [ ⟨0o7700, 0o6000, [], fun w _ => .zjf (fieldE w)⟩
  , ⟨0o7700, 0o6100, [], fun w _ => .nzf (fieldE w)⟩
  , ⟨0o7700, 0o6200, [], fun w _ => .pjf (fieldE w)⟩
  , ⟨0o7700, 0o6300, [], fun w _ => .njf (fieldE w)⟩
  , ⟨0o7700, 0o6400, [], fun w _ => .zjb (fieldE w)⟩
  , ⟨0o7700, 0o6500, [], fun w _ => .nzb (fieldE w)⟩
  , ⟨0o7700, 0o6600, [], fun w _ => .pjb (fieldE w)⟩
  , ⟨0o7700, 0o6700, [], fun w _ => .njb (fieldE w)⟩
  , ⟨0o7700, 0o7000, [0o7000], fun w _ => .jpi (fieldE w)⟩
  , ⟨0o7700, 0o7100, [0o7100], fun w _ => .jfi (fieldE w)⟩ ]

/-- spec/opcode_table.json, its 30 rows in its order. -/
def opcodeTable : List OpcodeRow :=
  opcodeTableExact ++ opcodeTableBank ++ opcodeTableLoad ++ opcodeTableJump

/-- R99's other description of decoding: "a decoder takes the first matching row that does not exclude the word". -/
def decodeByTable (w g : Word) : Option Instr :=
  (opcodeTable.find? (·.names w)).map (fun r => r.build w g)

/-- Words of 12 bits from a number whose bit 0 is bit 0 of the first word, a later word's bits counting on from it. -/
def wordsOfNumber (w : Nat) : Word × Word :=
  (BitVec.ofNat 12 w, BitVec.ofNat 12 (w / 4096))

/-- The instruction the decoder reads from the table word `w` of `nbits` bits; every bit above `nbits` is 0
(DEDUCED, log entry 11). -/
def decodeTableWord (nbits w : Nat) : Option Instr :=
  let (first, second) := wordsOfNumber (w % 2 ^ nbits)
  match decode [first, second] with
  | .ok (i, _) => some i
  | .error _ => none

end Sys2Proof
end

