-- ==== Sys2Proof/Config.lean ====
section
/-! DEFINITION. What an instance of the machine fixes: the parameters of spec/00_scope.md R7 as plain data, their
defaults, and the free contents of memory nothing has written (spec/10_state.md R38). -/

namespace Sys2Proof

/-- `ILLEGAL_POLICY`: what a reserved first word does (spec/30_encoding.md R96, R97). -/
inductive IllegalPolicy where
  | fault   -- IllegalInstruction
  | nop     -- executes as NOP
  | halt    -- executes as HLT
  deriving DecidableEq, Repr

/-- `PRIORITY`: which pending level the arbiter selects (spec/60_exceptions.md R241).  A policy is plain data:
the default order, or a table from pending sets to levels (DESIGN CHOICE, log entry 4). -/
inductive Priority where
  | lowestFirst
  | byTable (rows : List (List Nat × Nat))
  deriving DecidableEq, Repr

/-- The parameters of one machine instance (R7).  `launchImage` numbers the initial memory image, the last
parameter of that table. -/
structure Config where
  numBanks      : Nat
  levels        : List Nat        -- LEVELS, strictly rising
  vectorBase    : Word
  priority      : Priority
  illegalPolicy : IllegalPolicy
  launchImage   : Nat
  deriving DecidableEq, Repr

/-- The defaults of R7.  The image number is the model's (DESIGN CHOICE, log entry 3). -/
def Config.default : Config :=
  { numBanks := 8, levels := [0o10, 0o20, 0o30, 0o40], vectorBase := 0
    priority := .lowestFirst, illegalPolicy := .fault, launchImage := 0 }

/-- The values R7 allows a parameter: 1 to 8 banks, a finite set of 12-bit levels (spec/92_eei_decisions.md D12). -/
abbrev Config.Wf (c : Config) : Prop :=
  1 ≤ c.numBanks ∧ c.numBanks ≤ 8 ∧ c.levels.Pairwise (· < ·) ∧ ∀ l ∈ c.levels, l < 4096

/-- The power-on contents of a cell nothing has written, for a launch image and a cell: ANY word (R38, 93 U7).
A free value: it has no body, so nothing can be proved from it (log entry 3). -/
opaque Config.initialWord : Nat → Nat → Word

end Sys2Proof
end

