-- ==== Sys2Proof/Machine/State.lean ====
section
/-! DEFINITION. The state of one machine instance (spec/10_state.md), why a step stops, and the state after reset. -/

namespace Sys2Proof.Machine

/-- The four symbolic memory roles (spec/00_scope.md R12, R14): Buffer, Direct, Indirect, Relative. -/
inductive Role where
  | b | d | i | r
  deriving DecidableEq, Repr

/-- The interrupt-lock (R30). -/
inductive Lock where
  | locked         -- LOCKED: interrupts blocked
  | unlockPending  -- UNLOCK_PENDING: a clear has been issued, deferred by one instruction
  | free           -- FREE: interrupts may be accepted
  deriving DecidableEq, Repr

/-- The four bank-select registers `BSEL[b]`, `BSEL[d]`, `BSEL[i]`, `BSEL[r]` (R27). -/
structure BankSelects where
  b : BankNo
  d : BankNo
  i : BankNo
  r : BankNo
  deriving DecidableEq, Repr

/-- `MEM`: the cells something has written, as pairs of a cell's number and its word (log entry 2).  A cell that is
not listed holds its power-on contents, which are not a known value (log entry 3). -/
abbrev Memory := List (Nat × Word)

/-- The canonical form: cell numbers strictly rising, so no cell is listed twice.  An unlisted cell has no known
value, so no entry can equal what it reads as. -/
abbrev Memory.wf (m : Memory) : Prop := m.Pairwise (fun c c' => c.1 < c'.1)

/-- The state record of R20, and the parameters of the instance (R7), which nothing changes (log entry 1). -/
structure State where
  a      : Word          -- the accumulator `A` (R21)
  p      : Word          -- the program counter `P` (R23)
  bsel   : BankSelects   -- (R27)
  mem    : Memory        -- (R37)
  lock   : Lock          -- (R30)
  pend   : List Nat      -- `PEND`, a set: strictly rising (R33; log entry 10)
  run    : Bool          -- (R36)
  config : Config
  deriving DecidableEq, Repr

/-- The three faults (spec/60_exceptions.md R230).  A fault is not a trap (R231): it is reported to whoever asked for
the step or the host operation, and the state stays what it was before (R232). -/
inductive Fault where
  /-- AddressFault (R233): raised by any access through a role whose select names a bank that does not exist, and by
  the host's READ and WRITE at an address of 4096 or more.  Safe: the spec's own fault. -/
  | addressFault (role : Role) (addr : Nat)
  /-- IllegalInstruction (R234): raised by the decode of a reserved first word `w` at `ia` under policy `fault`.
  Safe: the spec's own fault. -/
  | illegalInstruction (ia : Word) (w : Word)
  /-- InvalidInterruptLevel (R235): raised by the host's REQUEST_INTERRUPT only, never by a step.
  Safe: the spec's own fault. -/
  | invalidInterruptLevel (level : Nat)
  deriving DecidableEq, Repr

/-- Why a step refuses. -/
inductive Refusal where
  /-- Raised by an arm of `exec` whose instruction has no meaning yet (none is left).  Safe: nothing is claimed. -/
  | notModelled (mnemonic : String)
  deriving DecidableEq, Repr

/-- What a step of the processor answers. -/
abbrev Result := Host.Outcome State Fault Refusal

/-- A newly constructed machine instance with parameters `c` (R41, R270): the reset values of the registers and the
interrupt machine, and memory that nothing has written. -/
def State.launch (c : Config) : State :=
  { a := 0, p := 0, bsel := ⟨0, 0, 0, 0⟩, mem := [], lock := .locked, pend := [], run := false, config := c }

/-- The machine right after reset (R41), with the default parameters of R7. -/
def State.reset : State := State.launch Config.default

end Sys2Proof.Machine
end

