-- ==== Sys2Proof/Machine/Ops.lean ====
section
/-! DEFINITION. The named operations over registers, memory, the interrupt-lock and the pending set:
spec/10_state.md, spec/20_memory.md, the lock's transitions (R31), interrupt entry (spec/60_exceptions.md R243) and
the codes of the faults (R233 to R235). -/

namespace Sys2Proof.Machine

/-! ### Faults -/

/-- The numeric code of a fault, as the host sees it (spec/60_exceptions.md R233 to R235; spec/92_eei_decisions.md D21). -/
def Fault.code : Fault → Nat
  | .addressFault _ _ => 1
  | .illegalInstruction _ _ => 2
  | .invalidInterruptLevel _ => 3

/-! ### Registers -/

/-- `BSEL[role]` (R27). -/
def BankSelects.get (s : BankSelects) : Role → BankNo
  | .b => s.b
  | .d => s.d
  | .i => s.i
  | .r => s.r

/-- `BSEL[role] <- x`; no other select changes (R28). -/
def BankSelects.set (s : BankSelects) (role : Role) (x : BankNo) : BankSelects :=
  match role with
  | .b => { s with b := x }
  | .d => { s with d := x }
  | .i => { s with i := x }
  | .r => { s with r := x }

/-- `A <- v` (R22). -/
def State.setA (s : State) (v : Word) : State := { s with a := v }

/-- `P <- v` (R23). -/
def State.setP (s : State) (v : Word) : State := { s with p := v }

/-- `BSEL[role] <- x` (R27, R29): no cell of memory changes. -/
def State.setBsel (s : State) (role : Role) (x : BankNo) : State := { s with bsel := s.bsel.set role x }

/-- `LOCK <- l` (R30). -/
def State.setLock (s : State) (l : Lock) : State := { s with lock := l }

/-- `PEND <- ls` (R33). -/
def State.setPend (s : State) (ls : List Nat) : State := { s with pend := ls }

/-- `RUN <- v` (R36). -/
def State.setRun (s : State) (v : Bool) : State := { s with run := v }

/-- `MEM` replaced; used by `memWrite` only (R53). -/
def State.setMem (s : State) (m : Memory) : State := { s with mem := m }

/-- `P <- ia +12 n`: past an instruction of `n` words (spec/40_cycle.md R112, R113), wrapping within the bank (R25). -/
def State.advance (s : State) (n : Word) : State := s.setP (s.p + n)

/-- `trunc12(n)` (spec/00_scope.md R9). -/
def trunc12 (n : Nat) : Word := BitVec.ofNat 12 n

/-! ### Memory -/

/-- `BANK_SIZE` (R7). -/
def bankSize : Nat := 4096

/-- The number of the cell `MEM[bank][addr]` (R37; log entry 2). -/
def cellNumber (bank : BankNo) (addr : Word) : Nat := bank.toNat * bankSize + addr.toNat

/-- The word listed for a cell, `none` where nothing has written it. -/
def Memory.lookup : Memory → Nat → Option Word
  | [], _ => none
  | (k', v) :: m, k => if k = k' then some v else Memory.lookup m k

/-- One cell written, in the canonical form. -/
def Memory.insert : Memory → Nat → Word → Memory
  | [], k, v => [(k, v)]
  | (k', v') :: m, k, v =>
    if k < k' then (k, v) :: (k', v') :: m
    else if k = k' then (k, v) :: m
    else (k', v') :: Memory.insert m k v

/-- `MEM[bank][addr]`: the listed word, else the power-on contents, a free value (R38; log entry 3). -/
def State.cell (s : State) (bank : BankNo) (addr : Word) : Word :=
  match s.mem.lookup (cellNumber bank addr) with
  | some v => v
  | none => Config.initialWord s.config.launchImage (cellNumber bank addr)

/-- Does `BSEL[role]` name an existing bank (R51)? -/
def State.bankExists (s : State) (role : Role) : Bool := decide ((s.bsel.get role).toNat < s.config.numBanks)

/-- `cell(role, addr) = MEM[BSEL[role]][addr]` (R50). -/
def State.roleCell (s : State) (role : Role) (addr : Word) : Word := s.cell (s.bsel.get role) addr

/-- `MemRead(role, addr)` at a word address (R52): such an address is always within the bank (R51). -/
def memRead (role : Role) (addr : Word) (s : State) : Except Fault Word :=
  if s.bankExists role then .ok (s.roleCell role addr) else .error (.addressFault role addr.toNat)

/-- `MemWrite(role, addr, v)` at a word address (R53). -/
def memWrite (role : Role) (addr : Word) (v : Word) (s : State) : Except Fault State :=
  if s.bankExists role then .ok (s.setMem (s.mem.insert (cellNumber (s.bsel.get role) addr) v))
  else .error (.addressFault role addr.toNat)

/-- Go on with the word read, or end with the fault of the read. -/
def readThen (role : Role) (addr : Word) (s : State) (k : Word → Result) : Result :=
  match memRead role addr s with
  | .ok v => k v
  | .error f => .fault f

/-- What a step does to the state after its instruction has completed; a fault or a refusal passes unchanged (R232). -/
def andThen (o : Result) (f : State → State) : Result :=
  match o with
  | .next s => .next (f s)
  | .fault e => .fault e
  | .refused e => .refused e

/-! ### The interrupt-lock -/

/-- Transition T1 of R31, DOC0's `begin_unlock()`: no effect unless the lock is LOCKED (R174). -/
def beginUnlock (s : State) : State :=
  match s.lock with
  | .locked => s.setLock .unlockPending
  | .unlockPending => s
  | .free => s

/-- Transition T2 of R31, DOC0's `advance_unlock()`, at the end of a normal step that began with the lock `lock0`
(spec/40_cycle.md R115). -/
def advanceUnlock (lock0 : Lock) (s : State) : State :=
  match lock0 with
  | .locked => s
  | .unlockPending => s.setLock .free
  | .free => s

/-! ### Pending interrupts and interrupt entry -/

/-- A level added to the set, once (R33). -/
def insertLevel (l : Nat) : List Nat → List Nat
  | [] => [l]
  | x :: xs => if l < x then l :: x :: xs else if l = x then x :: xs else x :: insertLevel l xs

/-- `PEND \ {L}` (R243). -/
def removeLevel (l : Nat) (pend : List Nat) : List Nat := pend.filter (· ≠ l)

/-- A policy's choice from a pending set, where its table has one. -/
def policyChoice : Priority → List Nat → Option Nat
  | .lowestFirst, _ => none
  | .byTable rows, pend => rows.lookup pend

/-- `select(PEND)` (R241), `none` when nothing is pending: the policy's choice where it is a member of the set, else
the lowest level (log entry 4). -/
def select (priority : Priority) (pend : List Nat) : Option Nat :=
  match policyChoice priority pend with
  | some l => if l ∈ pend then some l else pend.min?
  | none => pend.min?

/-- The level this step enters, if any (spec/40_cycle.md R110): LOCK is FREE and PEND is not empty at its start. -/
def State.enteredLevel (s : State) : Option Nat :=
  match s.lock with
  | .free => select s.config.priority s.pend
  | .locked => none
  | .unlockPending => none

/-- `VEC(L) = (VECTOR_BASE + L) mod 4096` (R7, R61). -/
def vectorSlot (c : Config) (l : Nat) : Word := c.vectorBase + trunc12 l

/-- Taking an interrupt, before the slot's instruction (R243): L leaves PEND and P goes to its vector slot.  Nothing
is saved (R244). -/
def enterInterrupt (l : Nat) (s : State) : State :=
  (s.setPend (removeLevel l s.pend)).setP (vectorSlot s.config l)

/-- Taking an interrupt, after the slot's instruction (R243; transition T3 of R31): LOCKED, whatever that did. -/
def finishEntry (s : State) : State := s.setLock .locked

end Sys2Proof.Machine
end

