-- ==== Sys2Proof/Machine/Bank.lean ====
section
/-! DEFINITION. The bank-select and bank/P setters (spec/44_bank.md).  None reads memory or faults, whatever `X` is. -/

namespace Sys2Proof.Machine

/-- Selects written one after another with the same bank number (R27, R28). -/
def setSelects (roles : List Role) (x : BankNo) (s : State) : State :=
  roles.foldl (fun t role => t.setBsel role x) s

/-- A setter that lets P run on. -/
def setAndContinue (roles : List Role) (x : BankNo) (s : State) : Result :=
  .next ((setSelects roles x s).advance 1)

/-- A setter that also jumps: P gets A (R188). -/
def setAndJump (roles : List Role) (x : BankNo) (s : State) : Result :=
  .next ((setSelects roles x s).setP s.a)

/-- SRJ (R180). -/
def execSrj (x : BankNo) (s : State) : Result := setAndJump [.r] x s

/-- SIC (R181). -/
def execSic (x : BankNo) (s : State) : Result := setAndContinue [.i] x s

/-- IRJ (R182). -/
def execIrj (x : BankNo) (s : State) : Result := setAndJump [.i, .r] x s

/-- SDC (R183). -/
def execSdc (x : BankNo) (s : State) : Result := setAndContinue [.d] x s

/-- DRJ (R184). -/
def execDrj (x : BankNo) (s : State) : Result := setAndJump [.d, .r] x s

/-- SID (R185). -/
def execSid (x : BankNo) (s : State) : Result := setAndContinue [.i, .d] x s

/-- ACJ (R186): the Buffer select is not changed. -/
def execAcj (x : BankNo) (s : State) : Result := setAndJump [.d, .i, .r] x s

/-- SBU (R187). -/
def execSbu (x : BankNo) (s : State) : Result := setAndContinue [.b] x s

end Sys2Proof.Machine
end

