-- ==== Sys2Proof/Machine/Control.lean ====
section
/-! DEFINITION. The control instructions (spec/43_control.md) and what a reserved first word does under each policy. -/

namespace Sys2Proof.Machine

/-- The sole effect of NOP: P passes the instruction (R170, R171). -/
def doNothing (s : State) : Result := .next (s.advance 1)

/-- The effect of HLT: RUN is cleared and P passes the instruction (R172, spec/40_cycle.md R112). -/
def halt (s : State) : Result := .next ((s.setRun false).advance 1)

/-- NOP (R170): `X` is ignored. -/
def execNop (_x : BankNo) (s : State) : Result := doNothing s

/-- HLT (R172): its two words are equivalent. -/
def execHlt (_e : Field) (s : State) : Result := halt s

/-- CIL (R174). -/
def execCil (s : State) : Result := .next ((beginUnlock s).advance 1)

/-- A reserved first word `w` fetched at `s.p` (spec/30_encoding.md R96, R97; spec/60_exceptions.md R234). -/
def execReserved (w : Word) (s : State) : Result :=
  match s.config.illegalPolicy with
  | .fault => .fault (.illegalInstruction s.p w)
  | .nop => doNothing s
  | .halt => halt s

end Sys2Proof.Machine
end

