-- ==== Sys2Proof/Machine/Flags.lean ====
section
/-! DEFINITION. There are no flags (spec/10_state.md R26): the conditional jumps test A itself.  The four conditions
of spec/42_jump.md R150. -/

namespace Sys2Proof.Machine

/-- The condition a jump names. -/
inductive Condition where
  | zero | nonZero | positive | negative
  deriving DecidableEq, Repr

/-- The sign bit, bit 11 (spec/00_scope.md R10). -/
def signBit (a : Word) : Bool := a.getLsbD 11

/-- Does the accumulator meet the condition (R150)?  0000 is zero and positive, 7777 is non-zero and negative. -/
def Condition.holds : Condition → Word → Bool
  | .zero, a => a == 0
  | .nonZero, a => a != 0
  | .positive, a => !signBit a
  | .negative, a => signBit a

end Sys2Proof.Machine
end

