-- ==== Sys2Proof/Machine/Operands.lean ====
section
/-! DEFINITION. The operand modes (spec/30_encoding.md R84 to R86).  In every definition the state is the one before
P is advanced, so its `p` is `ia` (log entry 5). -/

namespace Sys2Proof.Machine

/-- `zext12(e)` (spec/00_scope.md R11): the high six bits are zero. -/
def zext12 (e : Field) : Word := e.setWidth 12

/-- The operand modes of R84, with the fields that name the operand. -/
inductive Mode where
  | n (e : Field)   -- no address: the operand is `E` itself
  | d (e : Field)   -- direct
  | i (e : Field)   -- indirect
  | m (g : Word)    -- memory: the address is the second word
  | f (e : Field)   -- relative forward
  | c (g : Word)    -- constant: the operand is the second word
  | b (e : Field)   -- relative backward
  deriving DecidableEq, Repr

/-- `ia +12 zext12(E)`: the base is the instruction's own address (R85). -/
def forward (ia : Word) (e : Field) : Word := ia + zext12 e

/-- `ia -12 zext12(E)` (R85). -/
def backward (ia : Word) (e : Field) : Word := ia - zext12 e

/-- Go on with the operand of a mode (R84), read through the roles of spec/20_memory.md R56 in the order of R59; the
first fault is reported (R60). -/
def operandThen (mode : Mode) (s : State) (k : Word → Result) : Result :=
  match mode with
  | .n e => k (zext12 e)
  | .d e => readThen .d (zext12 e) s k
  | .i e => readThen .d (zext12 e) s fun ptr => readThen .i ptr s k
  | .m g => readThen .i g s k
  | .f e => readThen .r (forward s.p e) s k
  | .c g => k g
  | .b e => readThen .r (backward s.p e) s k

/-- The words of an instruction with the mode: two for M and C (R82, R83). -/
def Mode.words : Mode → Word
  | .n _ | .d _ | .i _ | .f _ | .b _ => 1
  | .m _ | .c _ => 2

end Sys2Proof.Machine
end

