-- ==== Sys2Proof/Machine/Jump.lean ====
section
/-! DEFINITION. The jump instructions (spec/42_jump.md). -/

namespace Sys2Proof.Machine

/-- A conditional jump (R150): P gets the target if A meets the condition, else passes the instruction. -/
def jumpIf (c : Condition) (target : Word) (s : State) : Result :=
  .next (if c.holds s.a then s.setP target else s.advance 1)

/-- ZJF (R151). -/
def execZjf (e : Field) (s : State) : Result := jumpIf .zero (forward s.p e) s

/-- NZF (R152). -/
def execNzf (e : Field) (s : State) : Result := jumpIf .nonZero (forward s.p e) s

/-- PJF (R153). -/
def execPjf (e : Field) (s : State) : Result := jumpIf .positive (forward s.p e) s

/-- NJF (R154). -/
def execNjf (e : Field) (s : State) : Result := jumpIf .negative (forward s.p e) s

/-- ZJB (R155). -/
def execZjb (e : Field) (s : State) : Result := jumpIf .zero (backward s.p e) s

/-- NZB (R156). -/
def execNzb (e : Field) (s : State) : Result := jumpIf .nonZero (backward s.p e) s

/-- PJB (R157). -/
def execPjb (e : Field) (s : State) : Result := jumpIf .positive (backward s.p e) s

/-- NJB (R158). -/
def execNjb (e : Field) (s : State) : Result := jumpIf .negative (backward s.p e) s

/-- A jump through a pointer word: P gets the word a mode names; no select changes (R159, R160). -/
def jumpVia (mode : Mode) (s : State) : Result :=
  operandThen mode s fun target => .next (s.setP target)

/-- JPI (R159). -/
def execJpi (e : Field) (s : State) : Result := jumpVia (.d e) s

/-- JFI (R160). -/
def execJfi (e : Field) (s : State) : Result := jumpVia (.f e) s

end Sys2Proof.Machine
end

