-- ==== Sys2Proof/Machine/Load.lean ====
section
/-! DEFINITION. The load-accumulator instructions (spec/41_load.md). -/

namespace Sys2Proof.Machine

/-- A load: A gets the operand of the mode, every bit of it, and P passes the instruction (R138, spec/40_cycle.md R112). -/
def loadA (mode : Mode) (s : State) : Result :=
  operandThen mode s fun v => .next ((s.setA v).advance mode.words)

/-- LDN (R130). -/
def execLdn (e : Field) (s : State) : Result := loadA (.n e) s

/-- LCN (R131): the complement is over all 12 bits of the zero-extended field. -/
def execLcn (e : Field) (s : State) : Result :=
  operandThen (.n e) s fun v => .next ((s.setA (~~~v)).advance 1)

/-- LDD (R132). -/
def execLdd (e : Field) (s : State) : Result := loadA (.d e) s

/-- LDI (R133). -/
def execLdi (e : Field) (s : State) : Result := loadA (.i e) s

/-- LDM (R134). -/
def execLdm (g : Word) (s : State) : Result := loadA (.m g) s

/-- LDF (R135). -/
def execLdf (e : Field) (s : State) : Result := loadA (.f e) s

/-- LDC (R136). -/
def execLdc (g : Word) (s : State) : Result := loadA (.c g) s

/-- LDB (R137). -/
def execLdb (e : Field) (s : State) : Result := loadA (.b e) s

end Sys2Proof.Machine
end

