-- ==== Sys2Proof/Machine/Dispatch.lean ====
section
/-! DEFINITION. Execution of one instruction: the state is the one before P is advanced, so its `p` is the address
`ia` of the instruction (spec/40_cycle.md R111; log entry 5). -/

namespace Sys2Proof.Machine

def exec (i : Instr) (s : State) : Host.Outcome State Fault Refusal :=
  match i with
  -- loads (spec/41_load.md)
  | .ldn e => Sys2Proof.Machine.execLdn e s
  | .lcn e => Sys2Proof.Machine.execLcn e s
  | .ldd e => Sys2Proof.Machine.execLdd e s
  | .ldi e => Sys2Proof.Machine.execLdi e s
  | .ldm g => Sys2Proof.Machine.execLdm g s
  | .ldf e => Sys2Proof.Machine.execLdf e s
  | .ldc g => Sys2Proof.Machine.execLdc g s
  | .ldb e => Sys2Proof.Machine.execLdb e s
  -- jumps (spec/42_jump.md)
  | .zjf e => Sys2Proof.Machine.execZjf e s
  | .nzf e => Sys2Proof.Machine.execNzf e s
  | .pjf e => Sys2Proof.Machine.execPjf e s
  | .njf e => Sys2Proof.Machine.execNjf e s
  | .zjb e => Sys2Proof.Machine.execZjb e s
  | .nzb e => Sys2Proof.Machine.execNzb e s
  | .pjb e => Sys2Proof.Machine.execPjb e s
  | .njb e => Sys2Proof.Machine.execNjb e s
  | .jpi e => Sys2Proof.Machine.execJpi e s
  | .jfi e => Sys2Proof.Machine.execJfi e s
  -- control (spec/43_control.md)
  | .nop x => Sys2Proof.Machine.execNop x s
  | .hlt e => Sys2Proof.Machine.execHlt e s
  | .cil => Sys2Proof.Machine.execCil s
  -- bank and P setters (spec/44_bank.md)
  | .srj x => Sys2Proof.Machine.execSrj x s
  | .sic x => Sys2Proof.Machine.execSic x s
  | .irj x => Sys2Proof.Machine.execIrj x s
  | .sdc x => Sys2Proof.Machine.execSdc x s
  | .drj x => Sys2Proof.Machine.execDrj x s
  | .sid x => Sys2Proof.Machine.execSid x s
  | .acj x => Sys2Proof.Machine.execAcj x s
  | .sbu x => Sys2Proof.Machine.execSbu x s

end Sys2Proof.Machine
end

