-- ==== Sys2Proof/Machine/Cycle.lean ====
section
/-! DEFINITION. The instruction cycle: fetch, decode and execute at P, the normal step, the interrupt entry
(spec/40_cycle.md R110 to R116; spec/60_exceptions.md R243), and where the next fetch takes place. -/

namespace Sys2Proof.Machine

/-- Decode the fetched words and execute: `w` at `s.p`, and `g` after it for a two-word instruction (R111). -/
def executeWords (w g : Word) (s : State) : Result :=
  match decodeFirst w g with
  | some i => exec i s
  | none => execReserved w s

/-- `ExecuteAtP` (R111, R113): the fetch and `G` are read through the Relative role, in this order (R59). -/
def executeAtP (s : State) : Result :=
  readThen .r s.p s fun w =>
    if isTwoWord w then readThen .r (s.p + 1) s fun g => executeWords w g s
    else executeWords w 0 s

/-- The step that executes the instruction at P, and the lock advance at its end (R110, R115). -/
def normalStep (s : State) : Result := andThen (executeAtP s) (advanceUnlock s.lock)

/-- `InterruptEntry` (spec/60_exceptions.md R243) for the selected level. -/
def interruptEntry (l : Nat) (s : State) : Result := andThen (executeAtP (enterInterrupt l s)) finishEntry

/-- `Step` (R110): it does not read RUN (R117). -/
def cycle (s : State) : Result :=
  match s.enteredLevel with
  | some l => interruptEntry l s
  | none => normalStep s

/-- Where the next step fetches: the vector slot of the level it enters, else P. -/
def State.fetchAddr (s : State) : Word :=
  match s.enteredLevel with
  | some l => vectorSlot s.config l
  | none => s.p

/-- The state with a Relative select that names an existing bank: itself, or pointed at bank 0 (log entry 6). -/
def State.withRelativeBank (s : State) : State :=
  if s.bankExists .r then s else s.setBsel .r 0

/-- Two words stored where the next step fetches its instruction. -/
def State.storeAtFetch (s : State) (first second : Word) : State :=
  let t := s.withRelativeBank
  t.setMem ((t.mem.insert (cellNumber (t.bsel.get .r) t.fetchAddr) first).insert
    (cellNumber (t.bsel.get .r) (t.fetchAddr + 1)) second)

/-- The instruction whose bits are `w`, as spec/opcode_table.json numbers them, stored where the next step fetches. -/
def placeInstruction (s : State) (nbits w : Nat) : State :=
  let words := wordsOfNumber (w % 2 ^ nbits)
  s.storeAtFetch words.1 words.2

end Sys2Proof.Machine
end

