-- ==== Sys2Proof/Machine/Step.lean ====
section
/-! DEFINITION. One step of the machine (spec/40_cycle.md R110). -/

namespace Sys2Proof.Machine

/-- One step, `single_step()` (R110). -/
def step (s : State) : Host.Outcome State Fault Refusal := cycle s

/-- `s` with an instruction stored where `step` fetches its next instruction; it stands for the host's load of a
program (log entry 6). -/
def State.withFetchWord (s : State) (nbits w : Nat) : State := placeInstruction s nbits w

end Sys2Proof.Machine
end

