-- ==== Sys2Proof/Machine/Console.lean ====
section
/-! DEFINITION. The host interface (spec/50_host_interface.md): each operation of the loader and the operator console
as a transition of the state, and the run loop with the host acting at step boundaries (spec/40_cycle.md R118 to R121). -/

namespace Sys2Proof.Machine

/-- The host's operations, but for RUN (see `runLoop`).  Numbers are natural numbers, as the rules have them. -/
inductive HostOp where
  | read (role : Role) (addr : Nat)
  | write (role : Role) (addr v : Nat)
  | setBank (role : Role) (n : Nat)
  | getBank (role : Role)
  | setPc (v : Nat)
  | getPc
  | setA (v : Nat)
  | getA
  | requestInterrupt (level : Nat)
  | getRun
  | getLock
  | getPending
  | reset
  | start
  | stop
  | step
  deriving DecidableEq, Repr

/-- What an operation returns to the host. -/
inductive Reply where
  | done
  | word (v : Word)
  | bank (n : BankNo)
  | flag (v : Bool)
  | lock (l : Lock)
  | levels (ls : List Nat)
  deriving DecidableEq, Repr

/-- An operation's answer: the reply with the next state, or the fault with the state left as it was (R232). -/
abbrev HostResult := Host.Outcome (Reply × State) Fault Refusal

/-- READ (R200). -/
def hostRead (role : Role) (addr : Nat) (s : State) : HostResult :=
  if addr < bankSize then
    match memRead role (trunc12 addr) s with
    | .ok v => .next (.word v, s)
    | .error f => .fault f
  else .fault (.addressFault role addr)

/-- WRITE (R201): the cell receives `trunc12(v)`. -/
def hostWrite (role : Role) (addr v : Nat) (s : State) : HostResult :=
  if addr < bankSize then
    match memWrite role (trunc12 addr) (trunc12 v) s with
    | .ok t => .next (.done, t)
    | .error f => .fault f
  else .fault (.addressFault role addr)

/-- SET_BANK (R202): `n mod 8`, no fault even if the bank does not exist. -/
def hostSetBank (role : Role) (n : Nat) (s : State) : State := s.setBsel role (BitVec.ofNat 3 n)

/-- REQUEST_INTERRUPT (R206). -/
def hostRequest (level : Nat) (s : State) : HostResult :=
  if level ∈ s.config.levels then .next (.done, s.setPend (insertLevel level s.pend))
  else .fault (.invalidInterruptLevel level)

/-- RESET (R210, R41): the registers and the interrupt machine reinitialised, memory kept (R272). -/
def hostReset (s : State) : State := (State.launch s.config).setMem s.mem

/-- STEP (R213): one step, whatever RUN is. -/
def hostStep (s : State) : HostResult :=
  match Sys2Proof.Machine.step s with
  | .next t => .next (.done, t)
  | .fault f => .fault f
  | .refused e => .refused e

/-- One host operation, between steps (R214). -/
def perform (op : HostOp) (s : State) : HostResult :=
  match op with
  | .read role addr => hostRead role addr s
  | .write role addr v => hostWrite role addr v s
  | .setBank role n => .next (.done, hostSetBank role n s)
  | .getBank role => .next (.bank (s.bsel.get role), s)
  | .setPc v => .next (.done, s.setP (trunc12 v))
  | .getPc => .next (.word s.p, s)
  | .setA v => .next (.done, s.setA (trunc12 v))
  | .getA => .next (.word s.a, s)
  | .requestInterrupt level => hostRequest level s
  | .getRun => .next (.flag s.run, s)
  | .getLock => .next (.lock s.lock, s)
  | .getPending => .next (.levels s.pend, s)
  | .reset => .next (.done, hostReset s)
  | .start => .next (.done, s.setRun true)
  | .stop => .next (.done, s.setRun false)
  | .step => hostStep s

/-- The operations the host may perform while Run is looping (R214). -/
def HostOp.allowedDuringRun : HostOp → Bool
  | .requestInterrupt _ | .stop | .read _ _ | .getBank _ | .getPc | .getA | .getRun | .getLock | .getPending => true
  | .write _ _ _ | .setBank _ _ | .setPc _ | .setA _ | .reset | .start | .step => false

/-- What the host is told of an operation: its reply, or the fault that ended it.  No fault is swallowed (R231). -/
inductive Report where
  | reply (v : Reply)
  | fault (f : Fault)
  | refused (e : Refusal)
  deriving DecidableEq, Repr

/-- One operation carried out: what the host is told, and the state after, which a faulting operation leaves as it
was (R232). -/
def respond (op : HostOp) (s : State) : Report × State :=
  match perform op s with
  | .next (v, t) => (.reply v, t)
  | .fault f => (.fault f, s)
  | .refused e => (.refused e, s)

/-- What the host is told of operations carried out one after another, and the state after them. -/
structure Session where
  reports : List Report
  state   : State
  deriving DecidableEq, Repr

/-- A session of the host outside Run: operations one after another (R214), each reported.  After a fault the host
goes on as it likes (R215). -/
def session : List HostOp → State → Session
  | [], s => ⟨[], s⟩
  | op :: ops, s =>
    let answer := respond op s
    let rest := session ops answer.2
    ⟨answer.1 :: rest.reports, rest.state⟩

/-- How a run with a given schedule of host operations ends. -/
inductive RunEnd where
  | returned (s : State)                 -- RUN is false: control returns to the caller (R118)
  | faulted (f : Fault) (s : State)      -- a step faulted; the state is the one before it (R120)
  | refused (e : Refusal) (s : State)    -- a step refused
  | notAllowed (op : HostOp) (s : State) -- the schedule holds an operation the host may not perform now (R214)
  | running (s : State)                  -- the schedule is used up and RUN is still true (log entry 7)
  deriving DecidableEq, Repr

/-- What a run tells the host: at each step boundary it reached, the report of each operation the host performed
there, in order, and how the run ended. -/
structure RunResult where
  reports : List (List Report)
  ending  : RunEnd
  deriving DecidableEq, Repr

/-- The operations up to the first that is not allowed during Run (R214). -/
def allowedPrefix (ops : List HostOp) : List HostOp := ops.takeWhile HostOp.allowedDuringRun

/-- The first operation that is not allowed during Run, if any. -/
def firstNotAllowed (ops : List HostOp) : Option HostOp := ops.find? fun op => !op.allowedDuringRun

/-- `Run` (spec/40_cycle.md R118), with what the host does at each step boundary as its input (R119): at a boundary the
host acts, and is told of each operation its reply or its fault, then a step follows if RUN is true.  Run does not set
RUN. -/
def runLoop : List (List HostOp) → State → RunResult
  | [], s => ⟨[], if s.run then .running s else .returned s⟩
  | ops :: schedule, s =>
    if s.run then
      let boundary := session (allowedPrefix ops) s
      match firstNotAllowed ops with
      | some op => ⟨[boundary.reports], .notAllowed op boundary.state⟩
      | none =>
        if boundary.state.run then
          match Sys2Proof.Machine.step boundary.state with
          | .next u =>
            let rest := runLoop schedule u
            ⟨boundary.reports :: rest.reports, rest.ending⟩
          | .fault f => ⟨[boundary.reports], .faulted f boundary.state⟩
          | .refused e => ⟨[boundary.reports], .refused e boundary.state⟩
        else ⟨[boundary.reports], .returned boundary.state⟩
    else ⟨[], .returned s⟩

end Sys2Proof.Machine
end

