-- ==== Sys2Proof/Safety.lean ====
section
/-! DEFINITION. The invariant between steps (spec/10_state.md R40), and the words claims about the machine use. -/

namespace Sys2Proof

/-- The eight load instructions, the only ones that write A (spec/10_state.md R21). -/
def Instr.isLoad : Instr → Bool
  | .ldn _ | .lcn _ | .ldd _ | .ldi _ | .ldm _ | .ldf _ | .ldc _ | .ldb _ => true
  | .zjf _ | .nzf _ | .pjf _ | .njf _ | .zjb _ | .nzb _ | .pjb _ | .njb _ | .jpi _ | .jfi _
  | .nop _ | .hlt _ | .cil | .srj _ | .sic _ | .irj _ | .sdc _ | .drj _ | .sid _ | .acj _ | .sbu _ => false

end Sys2Proof

namespace Sys2Proof.Machine

/-- The selects an instruction writes: the columns of the table of spec/44_bank.md R188(e). -/
def writtenSelects : Instr → List Role
  | .srj _ => [.r]
  | .sic _ => [.i]
  | .irj _ => [.i, .r]
  | .sdc _ => [.d]
  | .drj _ => [.d, .r]
  | .sid _ => [.d, .i]
  | .acj _ => [.d, .i, .r]
  | .sbu _ => [.b]
  | .ldn _ | .lcn _ | .ldd _ | .ldi _ | .ldm _ | .ldf _ | .ldc _ | .ldb _
  | .zjf _ | .nzf _ | .pjf _ | .njf _ | .zjb _ | .nzb _ | .pjb _ | .njb _ | .jpi _ | .jfi _
  | .nop _ | .hlt _ | .cil => []

/-- The instruction whose first word is at an address of the Relative bank, `none` where that word is reserved. -/
def State.instrAt (s : State) (addr : Word) : Option Instr :=
  decodeFirst (s.roleCell .r addr) (s.roleCell .r (addr + 1))

/-- `MEM` holds cells of existing banks only (spec/10_state.md R37). -/
abbrev Memory.within (m : Memory) (c : Config) : Prop := ∀ cell ∈ m, cell.1 < c.numBanks * bankSize

/-- `PEND` is a subset of `LEVELS` (R40 I3), in canonical form (R33). -/
abbrev PendWf (pend : List Nat) (c : Config) : Prop := pend.Pairwise (· < ·) ∧ ∀ l ∈ pend, l ∈ c.levels

/-- What holds between steps (R40).  I1 and I2 hold by the types of the fields. -/
structure State.Inv (s : State) : Prop where
  config : s.config.Wf
  mem    : Memory.wf s.mem
  within : Memory.within s.mem s.config
  pend   : PendWf s.pend s.config

/-- The state a run ends in. -/
def RunEnd.state : RunEnd → State
  | .returned s => s
  | .faulted _ s => s
  | .refused _ s => s
  | .notAllowed _ s => s
  | .running s => s

end Sys2Proof.Machine
end

