-- ==== Sys2Proof/Certificates/Slice0/Obligations.lean ====
section
/-! DEFINITION. The statements for the provers, from the numbered rules of spec/.  In a statement about `exec` the
state is the one before P is advanced, so its `p` is the address `ia` of the instruction.  `s.cell bank addr` is the
model's read of one cell, `MEM[bank][addr]`. -/

open Sys2Proof Sys2Proof.Machine

/-! ### Encoding -/

/-- R95: words of every family, written out from the spec's table, decode to the instructions they stand for. -/
def Obligations.WrittenWordsDecode : Prop :=
  decode [0o0401] = .ok (.ldn 0o01, []) ∧ decode [0o0577] = .ok (.lcn 0o77, []) ∧
  decode [0o2040] = .ok (.ldd 0o40, []) ∧ decode [0o2105] = .ok (.ldi 0o05, []) ∧
  decode [0o2100, 0o3456] = .ok (.ldm 0o3456, []) ∧ decode [0o2203] = .ok (.ldf 0o03, []) ∧
  decode [0o2200, 0o4000] = .ok (.ldc 0o4000, []) ∧ decode [0o2304] = .ok (.ldb 0o04, []) ∧
  decode [0o6000] = .ok (.zjf 0o00, []) ∧ decode [0o6702] = .ok (.njb 0o02, []) ∧
  decode [0o7010] = .ok (.jpi 0o10, []) ∧ decode [0o7101] = .ok (.jfi 0o01, []) ∧
  decode [0o0007] = .ok (.nop 7, []) ∧ decode [0o7777] = .ok (.hlt 0o77, []) ∧
  decode [0o0120] = .ok (.cil, []) ∧ decode [0o0013] = .ok (.srj 3, []) ∧
  decode [0o0064] = .ok (.sid 4, []) ∧ decode [0o0146] = .ok (.sbu 6, [])

/-- Decoding the words of a well-formed instruction gives it back, with every operand, and the words after it. -/
def Obligations.DecodeOfEncode : Prop :=
  ∀ (i : Instr) (rest : List Word), i.wf = true → decode (encode i ++ rest) = .ok (i, rest)

/-- Words that decode are the words of a well-formed instruction, followed by the rest: no other word means it. -/
def Obligations.EncodeOfDecode : Prop :=
  ∀ (ws : List Word) (i : Instr) (rest : List Word), decode ws = .ok (i, rest) → i.wf = true ∧ ws = encode i ++ rest

/-- R99: the tests of the rule and the 30 rows of the opcode table decode every word alike, and exactly one row matches
a named word. -/
def Obligations.DecoderFollowsOpcodeTable : Prop :=
  opcodeTable.length = 30 ∧
  (∀ w g : Word, decodeFirst w g = decodeByTable w g) ∧
  (∀ w g : Word, (opcodeTable.filter (·.names w)).length = if (decodeFirst w g).isSome then 1 else 0)

/-- R95: of the 4096 possible first words, 1095 name an instruction and 3001 are reserved. -/
def Obligations.NamedWordCount : Prop :=
  ((List.range 4096).filter fun n => (decodeFirst (BitVec.ofNat 12 n) 0).isSome).length = 1095 ∧
  ((List.range 4096).filter fun n => (decodeFirst (BitVec.ofNat 12 n) 0).isNone).length = 3001

/-- R96: the reserved words are exactly those listed, and under the default policy executing one raises
IllegalInstruction with its address and the word, by a normal step and by an interrupt entry. -/
def Obligations.ReservedWordsListedAndFault : Prop :=
  (∀ w g : Word, decodeFirst w g = none ↔
    w.toNat = 0 ∨ (0o0100 ≤ w.toNat ∧ w.toNat ≤ 0o0117) ∨ (0o0121 ≤ w.toNat ∧ w.toNat ≤ 0o0137) ∨
    (0o0150 ≤ w.toNat ∧ w.toNat ≤ 0o0177) ∨ (0o0200 ≤ w.toNat ∧ w.toNat ≤ 0o0377) ∨
    (0o0600 ≤ w.toNat ∧ w.toNat ≤ 0o0777) ∨ (0o1000 ≤ w.toNat ∧ w.toNat ≤ 0o1777) ∨ w.toNat = 0o2300 ∨
    (0o2400 ≤ w.toNat ∧ w.toNat ≤ 0o5777) ∨ w.toNat = 0o7000 ∨ w.toNat = 0o7100 ∨
    (0o7200 ≤ w.toNat ∧ w.toNat ≤ 0o7677) ∨ (0o7701 ≤ w.toNat ∧ w.toNat ≤ 0o7776)) ∧
  (∀ s : State, s.config.illegalPolicy = .fault → s.bsel.r.toNat < s.config.numBanks →
    s.instrAt s.fetchAddr = none →
    step s = .fault (.illegalInstruction s.fetchAddr (s.cell s.bsel.r s.fetchAddr)))

/-- R97: under policy `nop` a reserved word executes as NOP, under `halt` as HLT, one word long, with the lock advance;
in a vector slot too. -/
def Obligations.ReservedWordUnderOtherPolicies : Prop :=
  (∀ s : State, (s.lock ≠ .free ∨ s.pend = []) → s.bsel.r.toNat < s.config.numBanks → s.instrAt s.p = none →
    (s.config.illegalPolicy = .nop →
      step s = .next { s with p := s.p + 1, lock := if s.lock = .unlockPending then .free else s.lock }) ∧
    (s.config.illegalPolicy = .halt →
      step s = .next { s with
        p := s.p + 1, run := false, lock := if s.lock = .unlockPending then .free else s.lock })) ∧
  (∀ (s : State) (l : Nat), s.lock = .free → select s.config.priority s.pend = some l →
    s.bsel.r.toNat < s.config.numBanks → s.instrAt s.fetchAddr = none →
    (s.config.illegalPolicy = .nop →
      step s = .next { s with p := s.fetchAddr + 1, pend := s.pend.filter (· ≠ l), lock := .locked }) ∧
    (s.config.illegalPolicy = .halt →
      step s = .next { s with
        p := s.fetchAddr + 1, run := false, pend := s.pend.filter (· ≠ l), lock := .locked }))

/-! ### Loads -/

/-- R130, R131: LDN loads the zero-extended field, LCN its 12-bit complement; both always complete. -/
def Obligations.LoadNoAddressResults : Prop :=
  ∀ (e : Field) (s : State),
    decode [0o0400 + e.setWidth 12] = .ok (.ldn e, []) ∧
    exec (.ldn e) s = .next { s with a := e.setWidth 12, p := s.p + 1 } ∧
    decode [0o0500 + e.setWidth 12] = .ok (.lcn e, []) ∧
    exec (.lcn e) s = .next { s with a := e.setWidth 12 ^^^ 0o7777, p := s.p + 1 } ∧
    exec (.lcn e) s = .next { s with a := 0o7777 - e.setWidth 12, p := s.p + 1 }

/-- R132: LDD loads the word at `E` of the Direct bank, or faults where that bank does not exist. -/
def Obligations.LoadDirectResult : Prop :=
  ∀ (e : Field) (s : State),
    decode [0o2000 + e.setWidth 12] = .ok (.ldd e, []) ∧
    (s.bsel.d.toNat < s.config.numBanks →
      exec (.ldd e) s = .next { s with a := s.cell s.bsel.d (e.setWidth 12), p := s.p + 1 }) ∧
    (s.config.numBanks ≤ s.bsel.d.toNat → exec (.ldd e) s = .fault (.addressFault .d e.toNat))

/-- R133: LDI reads a pointer at `E` of the Direct bank and loads the word it names in the Indirect bank; the Direct
bank's fault comes first. -/
def Obligations.LoadIndirectResult : Prop :=
  ∀ (e : Field) (s : State),
    (e ≠ 0 → decode [0o2100 + e.setWidth 12] = .ok (.ldi e, [])) ∧
    (s.bsel.d.toNat < s.config.numBanks → s.bsel.i.toNat < s.config.numBanks →
      exec (.ldi e) s = .next { s with
        a := s.cell s.bsel.i (s.cell s.bsel.d (e.setWidth 12)), p := s.p + 1 }) ∧
    (s.config.numBanks ≤ s.bsel.d.toNat → exec (.ldi e) s = .fault (.addressFault .d e.toNat)) ∧
    (s.bsel.d.toNat < s.config.numBanks → s.config.numBanks ≤ s.bsel.i.toNat →
      exec (.ldi e) s = .fault (.addressFault .i (s.cell s.bsel.d (e.setWidth 12)).toNat))

/-- R134: LDM takes `G` from the word after it, through the Relative bank, and loads the word at `G` of the Indirect
bank; P passes both words. -/
def Obligations.LoadMemoryResult : Prop :=
  (∀ (g : Word) (s : State),
    decode [0o2100, g] = .ok (.ldm g, []) ∧
    (s.bsel.i.toNat < s.config.numBanks →
      exec (.ldm g) s = .next { s with a := s.cell s.bsel.i g, p := s.p + 2 }) ∧
    (s.config.numBanks ≤ s.bsel.i.toNat → exec (.ldm g) s = .fault (.addressFault .i g.toNat))) ∧
  (∀ s : State, s.bsel.r.toNat < s.config.numBanks → s.cell s.bsel.r s.p = 0o2100 →
    executeAtP s = exec (.ldm (s.cell s.bsel.r (s.p + 1))) s)

/-- R136: LDC loads the word after it, read through the Relative bank; P passes both words. -/
def Obligations.LoadConstantResult : Prop :=
  (∀ (g : Word) (s : State),
    decode [0o2200, g] = .ok (.ldc g, []) ∧ exec (.ldc g) s = .next { s with a := g, p := s.p + 2 }) ∧
  (∀ s : State, s.bsel.r.toNat < s.config.numBanks → s.cell s.bsel.r s.p = 0o2200 →
    executeAtP s = .next { s with a := s.cell s.bsel.r (s.p + 1), p := s.p + 2 })

/-- R135, R137: LDF and LDB load the word `E` after or before the instruction, in the Relative bank it was fetched
from; 2300 is reserved. -/
def Obligations.LoadRelativeResults : Prop :=
  (∀ (e : Field) (s : State),
    (e ≠ 0 → decode [0o2200 + e.setWidth 12] = .ok (.ldf e, [])) ∧
    (e ≠ 0 → decode [0o2300 + e.setWidth 12] = .ok (.ldb e, [])) ∧
    (s.bsel.r.toNat < s.config.numBanks →
      exec (.ldf e) s = .next { s with a := s.cell s.bsel.r (s.p + e.setWidth 12), p := s.p + 1 } ∧
      exec (.ldb e) s = .next { s with a := s.cell s.bsel.r (s.p - e.setWidth 12), p := s.p + 1 })) ∧
  decode [0o2300] = .error (.reserved 0o2300)

/-- R138(a): after any load the previous A has no influence. -/
def Obligations.LoadsForgetA : Prop :=
  ∀ (i : Instr) (v : Word) (s t : State), i.isLoad = true → exec i s = .next t → exec i { s with a := v } = .next t

/-! ### Jumps -/

/-- R151 to R154 with R150: the forward conditional jumps test A and jump `E` forward from the instruction's own
address; they always complete. -/
def Obligations.ForwardConditionalJumps : Prop :=
  ∀ (e : Field) (s : State),
    decode [0o6000 + e.setWidth 12] = .ok (.zjf e, []) ∧
    exec (.zjf e) s = .next { s with p := if s.a = 0 then s.p + e.setWidth 12 else s.p + 1 } ∧
    decode [0o6100 + e.setWidth 12] = .ok (.nzf e, []) ∧
    exec (.nzf e) s = .next { s with p := if s.a ≠ 0 then s.p + e.setWidth 12 else s.p + 1 } ∧
    decode [0o6200 + e.setWidth 12] = .ok (.pjf e, []) ∧
    exec (.pjf e) s = .next { s with p := if s.a.toNat < 0o4000 then s.p + e.setWidth 12 else s.p + 1 } ∧
    decode [0o6300 + e.setWidth 12] = .ok (.njf e, []) ∧
    exec (.njf e) s = .next { s with p := if 0o4000 ≤ s.a.toNat then s.p + e.setWidth 12 else s.p + 1 }

/-- R155 to R158 with R150: the backward conditional jumps. -/
def Obligations.BackwardConditionalJumps : Prop :=
  ∀ (e : Field) (s : State),
    decode [0o6400 + e.setWidth 12] = .ok (.zjb e, []) ∧
    exec (.zjb e) s = .next { s with p := if s.a = 0 then s.p - e.setWidth 12 else s.p + 1 } ∧
    decode [0o6500 + e.setWidth 12] = .ok (.nzb e, []) ∧
    exec (.nzb e) s = .next { s with p := if s.a ≠ 0 then s.p - e.setWidth 12 else s.p + 1 } ∧
    decode [0o6600 + e.setWidth 12] = .ok (.pjb e, []) ∧
    exec (.pjb e) s = .next { s with p := if s.a.toNat < 0o4000 then s.p - e.setWidth 12 else s.p + 1 } ∧
    decode [0o6700 + e.setWidth 12] = .ok (.njb e, []) ∧
    exec (.njb e) s = .next { s with p := if 0o4000 ≤ s.a.toNat then s.p - e.setWidth 12 else s.p + 1 }

/-- R159: JPI jumps to the word at `E` of the Direct bank, or faults where that bank does not exist; 7000 is reserved. -/
def Obligations.JumpIndirectResult : Prop :=
  (∀ (e : Field) (s : State),
    (e ≠ 0 → decode [0o7000 + e.setWidth 12] = .ok (.jpi e, [])) ∧
    (s.bsel.d.toNat < s.config.numBanks →
      exec (.jpi e) s = .next { s with p := s.cell s.bsel.d (e.setWidth 12) }) ∧
    (s.config.numBanks ≤ s.bsel.d.toNat → exec (.jpi e) s = .fault (.addressFault .d e.toNat))) ∧
  decode [0o7000] = .error (.reserved 0o7000)

/-- R160: JFI jumps to the word `E` after the instruction, in the Relative bank it was fetched from; 7100 is reserved. -/
def Obligations.JumpForwardIndirectResult : Prop :=
  (∀ (e : Field) (s : State),
    (e ≠ 0 → decode [0o7100 + e.setWidth 12] = .ok (.jfi e, [])) ∧
    (s.bsel.r.toNat < s.config.numBanks →
      exec (.jfi e) s = .next { s with p := s.cell s.bsel.r (s.p + e.setWidth 12) })) ∧
  decode [0o7100] = .error (.reserved 0o7100)

/-! ### Control -/

/-- R170: the seven words 0001 to 0007 are NOP: P passes the instruction, the lock advances, nothing else changes; 0000
is not one of them. -/
def Obligations.NopResult : Prop :=
  decode [0o0000] = .error (.reserved 0o0000) ∧
  (∀ (x : BankNo) (s : State),
    (x ≠ 0 → decode [x.setWidth 12] = .ok (.nop x, [])) ∧
    exec (.nop x) s = .next { s with p := s.p + 1 }) ∧
  (∀ (x : BankNo) (s : State), x ≠ 0 → (s.lock ≠ .free ∨ s.pend = []) → s.bsel.r.toNat < s.config.numBanks →
    s.cell s.bsel.r s.p = x.setWidth 12 →
    step s = .next { s with p := s.p + 1, lock := if s.lock = .unlockPending then .free else s.lock })

/-- R172: 7700 and 7777 clear RUN and advance P; the step completes with the lock advance, and Run then returns
before another fetch. -/
def Obligations.HaltResult : Prop :=
  decode [0o7700] = .ok (.hlt 0o00, []) ∧ decode [0o7777] = .ok (.hlt 0o77, []) ∧
  (∀ (e : Field) (s : State), exec (.hlt e) s = .next { s with run := false, p := s.p + 1 }) ∧
  (∀ s : State, (s.lock ≠ .free ∨ s.pend = []) → s.bsel.r.toNat < s.config.numBanks →
    (s.cell s.bsel.r s.p = 0o7700 ∨ s.cell s.bsel.r s.p = 0o7777) →
    step s = .next { s with
      run := false, p := s.p + 1, lock := if s.lock = .unlockPending then .free else s.lock }) ∧
  (∀ (s t : State) (e : Field) (schedule : List (List HostOp)),
    exec (.hlt e) s = .next t → runLoop schedule t = ⟨[], .returned t⟩)

/-- R174: CIL turns LOCKED into UNLOCK_PENDING and nothing else; the next completed step ends FREE; executed while
UNLOCK_PENDING its step still ends FREE, and in a vector slot it has no lasting effect. -/
def Obligations.ClearInterruptLockResult : Prop :=
  decode [0o0120] = .ok (.cil, []) ∧
  (∀ s : State, exec .cil s =
    .next { s with lock := if s.lock = .locked then .unlockPending else s.lock, p := s.p + 1 }) ∧
  (∀ s : State, (s.lock ≠ .free ∨ s.pend = []) → s.bsel.r.toNat < s.config.numBanks →
    s.cell s.bsel.r s.p = 0o0120 →
    step s = .next { s with p := s.p + 1, lock := if s.lock = .locked then .unlockPending else .free } ∧
    ∀ t u, s.lock = .locked → step s = .next t → step t = .next u → u.lock = .free) ∧
  (∀ s : State, s.lock = .free → s.pend ≠ [] → s.bsel.r.toNat < s.config.numBanks →
    s.cell s.bsel.r s.fetchAddr = 0o0120 → ∃ t, step s = .next t ∧ t.lock = .locked)

/-! ### Bank and P setters -/

/-- R181, R183, R185, R187: the setters that let P run on write their selects and no other, and always complete,
whatever bank they name. -/
def Obligations.SettersThatContinue : Prop :=
  ∀ (x : BankNo) (s : State),
    decode [0o0020 + x.setWidth 12] = .ok (.sic x, []) ∧
    exec (.sic x) s = .next { s with bsel := { s.bsel with i := x }, p := s.p + 1 } ∧
    decode [0o0040 + x.setWidth 12] = .ok (.sdc x, []) ∧
    exec (.sdc x) s = .next { s with bsel := { s.bsel with d := x }, p := s.p + 1 } ∧
    decode [0o0060 + x.setWidth 12] = .ok (.sid x, []) ∧
    exec (.sid x) s = .next { s with bsel := { s.bsel with i := x, d := x }, p := s.p + 1 } ∧
    decode [0o0140 + x.setWidth 12] = .ok (.sbu x, []) ∧
    exec (.sbu x) s = .next { s with bsel := { s.bsel with b := x }, p := s.p + 1 }

/-- R180, R182, R184, R186: the setters that jump write their selects and no other and set P from A; they always
complete, whatever bank they name. -/
def Obligations.SettersThatJump : Prop :=
  ∀ (x : BankNo) (s : State),
    decode [0o0010 + x.setWidth 12] = .ok (.srj x, []) ∧
    exec (.srj x) s = .next { s with bsel := { s.bsel with r := x }, p := s.a } ∧
    decode [0o0030 + x.setWidth 12] = .ok (.irj x, []) ∧
    exec (.irj x) s = .next { s with bsel := { s.bsel with i := x, r := x }, p := s.a } ∧
    decode [0o0050 + x.setWidth 12] = .ok (.drj x, []) ∧
    exec (.drj x) s = .next { s with bsel := { s.bsel with d := x, r := x }, p := s.a } ∧
    decode [0o0070 + x.setWidth 12] = .ok (.acj x, []) ∧
    exec (.acj x) s = .next { s with bsel := { s.bsel with d := x, i := x, r := x }, p := s.a }

/-- R188(a): a step that changes the Relative select ends with P equal to A. -/
def Obligations.RelativeSelectChangesOnlyWithJumpToA : Prop :=
  ∀ s t : State, step s = .next t → t.bsel.r ≠ s.bsel.r → t.p = s.a ∧ t.a = s.a

/-! ### What an instruction leaves unchanged -/

/-- The frame of every instruction: what it may write is A (loads), the selects of R188(e), RUN (HLT), LOCK (CIL) and
P; everything else, and every cell of memory, is unchanged. -/
def Obligations.InstructionFrame : Prop :=
  ∀ (i : Instr) (s t : State), exec i s = .next t →
    (i.isLoad = false → t.a = s.a) ∧
    (∀ role, role ∉ writtenSelects i → t.bsel.get role = s.bsel.get role) ∧
    ((∀ e, i ≠ .hlt e) → t.run = s.run) ∧
    (i ≠ .cil → t.lock = s.lock) ∧
    t.pend = s.pend ∧ t.config = s.config ∧ t.mem = s.mem ∧
    ∀ bank addr, t.cell bank addr = s.cell bank addr

/-- R37, R65: no step writes memory; and none changes the parameters of the instance. -/
def Obligations.StepWritesNoMemory : Prop :=
  ∀ s t : State, step s = .next t →
    t.mem = s.mem ∧ t.config = s.config ∧ ∀ bank addr, t.cell bank addr = s.cell bank addr

/-! ### The instruction cycle -/

/-- R110, R111, R115: where no interrupt is entered, a step is ExecuteAtP followed by the lock advance, which a fault
skips; where the words at P decode to `i`, ExecuteAtP is `exec i` at that state. -/
def Obligations.StepExecutesTheDecodedInstruction : Prop :=
  (∀ s : State, (s.lock ≠ .free ∨ s.pend = []) →
    step s = match executeAtP s with
      | .next t => .next { t with lock := if s.lock = .unlockPending then .free else t.lock }
      | .fault f => .fault f
      | .refused e => .refused e) ∧
  ∀ (s : State) (i : Instr) (rest : List Word),
    (s.lock ≠ .free ∨ s.pend = []) → s.bsel.r.toNat < s.config.numBanks →
    decode [s.cell s.bsel.r s.p, s.cell s.bsel.r (s.p + 1)] = .ok (i, rest) →
    step s = match exec i s with
      | .next t => .next { t with lock := if s.lock = .unlockPending then .free else t.lock }
      | .fault f => .fault f
      | .refused e => .refused e

/-- R243: where the lock is FREE and the arbiter selects `l`, a step removes `l` from PEND, sets P to its vector slot,
executes the instruction there and ends LOCKED; a fault of ExecuteAtP is the step's. -/
def Obligations.StepEntersTheSelectedInterrupt : Prop :=
  (∀ (s : State) (l : Nat), s.lock = .free → select s.config.priority s.pend = some l →
    step s =
      match executeAtP { s with
          pend := s.pend.filter (· ≠ l), p := s.config.vectorBase + BitVec.ofNat 12 l } with
      | .next t => .next { t with lock := .locked }
      | .fault f => .fault f
      | .refused e => .refused e) ∧
  ∀ (s : State) (l : Nat) (i : Instr) (rest : List Word),
    s.lock = .free → select s.config.priority s.pend = some l → s.bsel.r.toNat < s.config.numBanks →
    decode [s.cell s.bsel.r (s.config.vectorBase + BitVec.ofNat 12 l),
      s.cell s.bsel.r (s.config.vectorBase + BitVec.ofNat 12 l + 1)] = .ok (i, rest) →
    step s =
      match exec i { s with
          pend := s.pend.filter (· ≠ l), p := s.config.vectorBase + BitVec.ofNat 12 l } with
      | .next t => .next { t with lock := .locked }
      | .fault f => .fault f
      | .refused e => .refused e

/-- R241: the arbiter selects a member of every non-empty pending set whatever the policy, by default the lowest, and
under a table the level its row for the set names, where that is pending.  That a policy is a table with a fallback is
the model's choice (log entry 4). -/
def Obligations.ArbiterSelectsAMember : Prop :=
  ∀ pend : List Nat, pend ≠ [] →
    (∀ policy, ∃ l, select policy pend = some l ∧ l ∈ pend) ∧
    (∃ l, select .lowestFirst pend = some l ∧ l ∈ pend ∧ ∀ l' ∈ pend, l ≤ l') ∧
    (∀ (rows : List (List Nat × Nat)) (l : Nat), rows.lookup pend = some l → l ∈ pend →
      select (.byTable rows) pend = some l)

/-- R245, R246, S2: a step that starts FREE with levels pending, and completes, has taken exactly the selected level
out of PEND and ends LOCKED, whatever instruction the slot held. -/
def Obligations.EntryRemovesOneLevelAndLocks : Prop :=
  ∀ s t : State, s.lock = .free → s.pend ≠ [] → step s = .next t →
    t.lock = .locked ∧ ∃ l ∈ s.pend, select s.config.priority s.pend = some l ∧
      l ∉ t.pend ∧ ∀ l', l' ≠ l → (l' ∈ t.pend ↔ l' ∈ s.pend)

/-- R31: the complete list of the lock's transitions, by steps and by host operations. -/
def Obligations.LockTransitionsAreComplete : Prop :=
  (∀ s t : State, step s = .next t →
    (s.lock = .locked → t.lock = if s.instrAt s.p = some .cil then .unlockPending else .locked) ∧
    (s.lock = .unlockPending → t.lock = .free) ∧
    (s.lock = .free → t.lock = if s.pend = [] then .free else .locked)) ∧
  (∀ (s t : State) (op : HostOp) (r : Reply), perform op s = .next (r, t) → t.lock ≠ s.lock →
    op = .step ∨ op = .reset) ∧
  (∀ (s t : State) (r : Reply), perform .reset s = .next (r, t) → t.lock = .locked)

/-- R116: a CIL executed while LOCKED is followed by exactly one protected instruction; the earliest entry is the step
after that. -/
def Obligations.UnlockIsDeferredByOneStep : Prop :=
  ∀ s t u : State, s.lock = .locked → s.instrAt s.p = some .cil → step s = .next t → step t = .next u →
    t.lock = .unlockPending ∧ t.pend = s.pend ∧ u.lock = .free ∧ u.pend = s.pend ∧
    ∀ v, step u = .next v → (u.pend = [] → v.lock = .free) ∧ (u.pend ≠ [] → v.lock = .locked ∧ v.pend ≠ u.pend)

/-- R34: PEND is written by a request, which adds its level, by interrupt entry, which removes the selected one, and
by reset, which empties it; nothing else writes it. -/
def Obligations.PendingSetWriters : Prop :=
  ∀ (s t : State) (op : HostOp) (r : Reply), perform op s = .next (r, t) → t.pend ≠ s.pend →
    (∃ l, op = .requestInterrupt l ∧ ∀ l', l' ∈ t.pend ↔ l' = l ∨ l' ∈ s.pend) ∨
    (op = .step ∧ s.lock = .free ∧
      ∃ l, select s.config.priority s.pend = some l ∧ ∀ l', l' ∈ t.pend ↔ l' ∈ s.pend ∧ l' ≠ l) ∨
    (op = .reset ∧ t.pend = [])

/-- R36, R173: START alone sets RUN; STOP, RESET and a step that executes HLT (or a reserved word under policy `halt`)
alone clear it. -/
def Obligations.RunFlagWriters : Prop :=
  ∀ (s t : State) (op : HostOp) (r : Reply), perform op s = .next (r, t) → t.run ≠ s.run →
    (t.run = true ∧ op = .start) ∨
    (t.run = false ∧ (op = .stop ∨ op = .reset ∨
      (op = .step ∧ ((∃ e, s.instrAt s.fetchAddr = some (.hlt e)) ∨
        (s.instrAt s.fetchAddr = none ∧ s.config.illegalPolicy = .halt)))))

/-- R117: a step does what it does whatever RUN is; one that executes HLT completes with P advanced, the lock
advanced and RUN false. -/
def Obligations.StepDoesNotReadRun : Prop :=
  (∀ (s : State) (v : Bool),
    (∀ f, step s = .fault f → step { s with run := v } = .fault f) ∧
    (∀ t, step s = .next t →
      ∃ t', step { s with run := v } = .next t' ∧ { t' with run := t.run } = t)) ∧
  (∀ (s : State) (e : Field), (s.lock ≠ .free ∨ s.pend = []) → s.bsel.r.toNat < s.config.numBanks →
    s.instrAt s.p = some (.hlt e) →
    step s = .next { s with
      run := false, p := s.p + 1, lock := if s.lock = .unlockPending then .free else s.lock })

/-- R56: the Buffer select never affects a step: the same fault, or the same next state but for that select. -/
def Obligations.StepDoesNotReadBufferSelect : Prop :=
  ∀ (s : State) (x : BankNo),
    (∀ f, step s = .fault f → step { s with bsel := { s.bsel with b := x } } = .fault f) ∧
    (∀ t, step s = .next t → ∃ t', step { s with bsel := { s.bsel with b := x } } = .next t' ∧
      { t' with bsel := { t'.bsel with b := t.bsel.b } } = t)

/-! ### Faults -/

/-- R236: the fault a step reports is the first in the order fetch, decode, the reads of the instruction. -/
def Obligations.FirstFaultIsReported : Prop :=
  ∀ s : State,
    (s.config.numBanks ≤ s.bsel.r.toNat → step s = .fault (.addressFault .r s.fetchAddr.toNat)) ∧
    (s.bsel.r.toNat < s.config.numBanks →
      (s.instrAt s.fetchAddr = none → s.config.illegalPolicy = .fault →
        step s = .fault (.illegalInstruction s.fetchAddr (s.cell s.bsel.r s.fetchAddr))) ∧
      (∀ e : Field, s.config.numBanks ≤ s.bsel.d.toNat →
        (s.instrAt s.fetchAddr = some (.ldd e) ∨ s.instrAt s.fetchAddr = some (.ldi e) ∨
          s.instrAt s.fetchAddr = some (.jpi e)) →
        step s = .fault (.addressFault .d e.toNat)) ∧
      (∀ e : Field, s.bsel.d.toNat < s.config.numBanks → s.config.numBanks ≤ s.bsel.i.toNat →
        s.instrAt s.fetchAddr = some (.ldi e) →
        step s = .fault (.addressFault .i (s.cell s.bsel.d (e.setWidth 12)).toNat)) ∧
      (∀ g : Word, s.config.numBanks ≤ s.bsel.i.toNat → s.instrAt s.fetchAddr = some (.ldm g) →
        step s = .fault (.addressFault .i g.toNat)))

/-- R230, R233 to R235: a step never refuses; a fault of a step is an AddressFault through r, d or i, whose select names
a missing bank, or IllegalInstruction of the reserved word it fetched under policy `fault`; the codes are 1, 2 and 3. -/
def Obligations.StepFaultsAreTheSpecs : Prop :=
  (∀ role addr, (Fault.addressFault role addr).code = 1) ∧ (∀ ia w, (Fault.illegalInstruction ia w).code = 2) ∧
  (∀ l, (Fault.invalidInterruptLevel l).code = 3) ∧
  ∀ s : State, (∀ e, step s ≠ .refused e) ∧
    ∀ f, step s = .fault f →
      (∃ role addr, f = .addressFault role addr ∧ role ≠ .b ∧ s.config.numBanks ≤ (s.bsel.get role).toNat) ∨
      (f = .illegalInstruction s.fetchAddr (s.cell s.bsel.r s.fetchAddr) ∧ s.instrAt s.fetchAddr = none ∧
        s.config.illegalPolicy = .fault)

/-- R51: an access is admitted when the select names an existing bank and the address is below 4096, else AddressFault
names the role and the address; with eight banks no step raises it. -/
def Obligations.AddressFaultExactlyWhenNotAdmitted : Prop :=
  (∀ (role : Role) (addr v : Nat) (s : State),
    ((s.bsel.get role).toNat < s.config.numBanks ∧ addr < 4096 →
      (∃ w, perform (.read role addr) s = .next (.word w, s)) ∧
      (∃ t, perform (.write role addr v) s = .next (.done, t))) ∧
    (¬((s.bsel.get role).toNat < s.config.numBanks ∧ addr < 4096) →
      perform (.read role addr) s = .fault (.addressFault role addr) ∧
      perform (.write role addr v) s = .fault (.addressFault role addr))) ∧
  (∀ s : State, s.config.numBanks = 8 → ∀ role addr, step s ≠ .fault (.addressFault role addr))

/-- With eight banks a step completes unless it fetches a reserved word under policy `fault`. -/
def Obligations.StepCompletesWithEightBanks : Prop :=
  ∀ s : State, s.config.numBanks = 8 →
    (s.instrAt s.fetchAddr ≠ none ∨ s.config.illegalPolicy ≠ .fault) → ∃ t, step s = .next t

/-! ### The invariant between steps -/

/-- R41: the values after construction with any parameters, State.reset being the instance with the defaults, and after
reset; RESET leaves memory as it was. -/
def Obligations.ResetValues : Prop :=
  (∀ c : Config, (State.launch c).a = 0 ∧ (State.launch c).p = 0 ∧ (State.launch c).bsel = ⟨0, 0, 0, 0⟩ ∧
    (State.launch c).lock = .locked ∧ (State.launch c).pend = [] ∧ (State.launch c).run = false ∧
    (State.launch c).config = c) ∧
  State.reset = State.launch Config.default ∧
  ∀ s : State, perform .reset s = .next (.done, { s with
    a := 0, p := 0, bsel := ⟨0, 0, 0, 0⟩, lock := .locked, pend := [], run := false })

/-- The invariant holds of every newly constructed instance with legal parameters, the default one among them. -/
def Obligations.ConstructionMeetsInv : Prop :=
  State.reset.Inv ∧ ∀ c : Config, c.Wf → (State.launch c).Inv

/-- R40: every step keeps the invariant. -/
def Obligations.StepKeepsInv : Prop :=
  ∀ s t : State, s.Inv → step s = .next t → t.Inv

/-- R40: every host operation keeps the invariant. -/
def Obligations.HostOperationKeepsInv : Prop :=
  ∀ (s t : State) (op : HostOp) (r : Reply), s.Inv → perform op s = .next (r, t) → t.Inv

/-- A run keeps the invariant, whatever the host does at its step boundaries and however it ends.  The schedule, and
its end and an operation that is not allowed as ends of a run, are the model's choice (log entry 7), and so are the
canonical forms of the invariant (log entries 2 and 10). -/
def Obligations.RunKeepsInv : Prop :=
  ∀ (schedule : List (List HostOp)) (s : State), s.Inv → (runLoop schedule s).ending.state.Inv

/-! ### Memory and the host interface -/

/-- R54: a write followed by a read returns the written value truncated to the word width. -/
def Obligations.WriteThenReadReturnsTheValue : Prop :=
  ∀ (role : Role) (addr v : Nat) (s : State),
    (s.bsel.get role).toNat < s.config.numBanks → addr < 4096 →
    ∃ t, perform (.write role addr v) s = .next (.done, t) ∧
      perform (.read role addr) t = .next (.word (BitVec.ofNat 12 v), t)

/-- R201: WRITE stores `trunc12(v)` in the one cell its role selects and changes nothing else, and writes nothing where
it faults. -/
def Obligations.WriteChangesOneCell : Prop :=
  ∀ (role : Role) (addr v : Nat) (s : State),
    ((addr < 4096 ∧ (s.bsel.get role).toNat < s.config.numBanks) →
      ∃ t, perform (.write role addr v) s = .next (.done, t) ∧
        t.cell (s.bsel.get role) (BitVec.ofNat 12 addr) = BitVec.ofNat 12 v ∧
        (∀ bank a, ¬(bank = s.bsel.get role ∧ a = BitVec.ofNat 12 addr) → t.cell bank a = s.cell bank a) ∧
        { t with mem := s.mem } = s) ∧
    (¬(addr < 4096 ∧ (s.bsel.get role).toNat < s.config.numBanks) →
      perform (.write role addr v) s = .fault (.addressFault role addr))

/-- R200: READ returns the cell its role selects and changes no state, or faults. -/
def Obligations.ReadReturnsTheSelectedCell : Prop :=
  ∀ (role : Role) (addr : Nat) (s : State),
    perform (.read role addr) s =
      if addr < 4096 ∧ (s.bsel.get role).toNat < s.config.numBanks
      then .next (.word (s.cell (s.bsel.get role) (BitVec.ofNat 12 addr)), s)
      else .fault (.addressFault role addr)

/-- R55: with equal selects a word written through one role is read through the other; setting one role's select
changes what no other role reads; a write through one role changes nothing read through a role with another select. -/
def Obligations.RolesAliasOrAreIndependent : Prop :=
  ∀ (x y : Role) (s : State),
    (s.bsel.get x = s.bsel.get y → ∀ addr v t, perform (.write x addr v) s = .next (.done, t) →
      perform (.read y addr) t = .next (.word (BitVec.ofNat 12 v), t)) ∧
    (x ≠ y → ∀ n addr, perform (.read y addr) (s.setBsel x n) =
      match perform (.read y addr) s with
      | .next (v, _) => .next (v, s.setBsel x n)
      | .fault f => .fault f
      | .refused e => .refused e) ∧
    (s.bsel.get x ≠ s.bsel.get y → ∀ addr v t, perform (.write x addr v) s = .next (.done, t) →
      ∀ a, t.roleCell y a = s.roleCell y a)

/-- R202: SET_BANK stores `n mod 8` in its own select, changes nothing else and never faults; GET_BANK returns it. -/
def Obligations.SetBankStoresModuloEight : Prop :=
  ∀ (role : Role) (n : Nat) (s : State), ∃ t, perform (.setBank role n) s = .next (.done, t) ∧
    perform (.getBank role) t = .next (.bank (BitVec.ofNat 3 n), t) ∧
    (t.bsel.get role).toNat = n % 8 ∧
    (∀ role', role' ≠ role → t.bsel.get role' = s.bsel.get role') ∧
    { t with bsel := s.bsel } = s

/-- R203, R204: SET_PC and SET_A store the truncated value and change nothing else; GET_PC and GET_A return it. -/
def Obligations.SetPcAndSetATruncate : Prop :=
  ∀ (v : Nat) (s : State),
    perform (.setPc v) s = .next (.done, { s with p := BitVec.ofNat 12 v }) ∧
    perform .getPc s = .next (.word s.p, s) ∧
    perform (.setA v) s = .next (.done, { s with a := BitVec.ofNat 12 v }) ∧
    perform .getA s = .next (.word s.a, s)

/-- R206: a request of a valid level adds it to PEND, once, in every lock state and whatever RUN is, and changes nothing
else; a request of any other level faults. -/
def Obligations.RequestAddsAValidLevel : Prop :=
  ∀ (l : Nat) (s : State),
    (l ∉ s.config.levels → perform (.requestInterrupt l) s = .fault (.invalidInterruptLevel l)) ∧
    (l ∈ s.config.levels → ∃ t, perform (.requestInterrupt l) s = .next (.done, t) ∧
      (∀ l', l' ∈ t.pend ↔ l' = l ∨ l' ∈ s.pend) ∧
      (s.Inv → l ∈ s.pend → t = s) ∧
      { t with pend := s.pend } = s)

/-- R208, R209, R211: START sets RUN and changes nothing else; the accessors return RUN, LOCK and PEND. -/
def Obligations.ConsoleFlagOperations : Prop :=
  ∀ s : State,
    perform .start s = .next (.done, { s with run := true }) ∧
    perform .getRun s = .next (.flag s.run, s) ∧
    perform .getLock s = .next (.lock s.lock, s) ∧
    perform .getPending s = .next (.levels s.pend, s)

/-! ### Run -/

/-- R118: Run with RUN false performs no cycle; undisturbed, it is `step` repeated while RUN is true, ended as soon as
RUN is false, or by the first fault, and in no other way.  The bound on its boundaries, at which it is still running,
is the model's form of the run (log entry 7). -/
def Obligations.RunIsRepeatedStep : Prop :=
  (∀ (schedule : List (List HostOp)) (s : State), s.run = false → runLoop schedule s = ⟨[], .returned s⟩) ∧
  ∀ (n : Nat) (s : State),
    ((∃ t, (runLoop (List.replicate n []) s).ending = .running t) ∨
      (∃ t, (runLoop (List.replicate n []) s).ending = .returned t) ∨
      (∃ f t, (runLoop (List.replicate n []) s).ending = .faulted f t)) ∧
    (∀ t, (runLoop (List.replicate n []) s).ending = .running t →
      Sys2Proof.core.run n s = .next t ∧ t.run = true ∧
        ∀ j, j < n → ∃ u : State, Sys2Proof.core.run j s = .next u ∧ u.run = true) ∧
    (∀ t, (runLoop (List.replicate n []) s).ending = .returned t →
      ∃ k, k ≤ n ∧ Sys2Proof.core.run k s = .next t ∧ t.run = false ∧
        ∀ j, j < k → ∃ u : State, Sys2Proof.core.run j s = .next u ∧ u.run = true) ∧
    (∀ f t, (runLoop (List.replicate n []) s).ending = .faulted f t →
      ∃ k, k < n ∧ Sys2Proof.core.run k s = .next t ∧ step t = .fault f ∧
        ∀ j, j ≤ k → ∃ u : State, Sys2Proof.core.run j s = .next u ∧ u.run = true)

/-- R212: STOP clears RUN and changes nothing else; performed at a step boundary of Run, after whatever requests and
reads the host makes there, it ends Run before the next fetch. -/
def Obligations.StopEndsRunBeforeTheNextFetch : Prop :=
  (∀ s : State, perform .stop s = .next (.done, { s with run := false })) ∧
  ∀ (ops : List HostOp) (schedule : List (List HostOp)) (s : State),
    (∀ op ∈ ops, op.allowedDuringRun = true) → s.run = true →
    ∃ t, (runLoop ((ops ++ [.stop]) :: schedule) s).ending = .returned t ∧ t.run = false ∧
      { t with pend := s.pend, run := true } = s

/-- R120: when a fault ends Run, the state is the one before the faulting step and RUN keeps its value, true. -/
def Obligations.FaultEndsRunWithRunTrue : Prop :=
  ∀ (schedule : List (List HostOp)) (s t : State) (f : Fault),
    (runLoop schedule s).ending = .faulted f t → t.run = true ∧ step t = .fault f

/-- R63, R214: while Run is looping nothing writes memory or the parameters, whatever the host does at the boundaries.
An operation outside R214's list ends the run there and the run names it: that end is the model's choice (log entry
7). -/
def Obligations.RunWritesNoMemory : Prop :=
  ∀ (schedule : List (List HostOp)) (s : State),
    (runLoop schedule s).ending.state.mem = s.mem ∧ (runLoop schedule s).ending.state.config = s.config ∧
    ∀ op t, (runLoop schedule s).ending = .notAllowed op t → op.allowedDuringRun = false

/-- R213: the host's STEP is one step, whatever RUN is: it is done with the step's next state, or returns the fault the
step raised. -/
def Obligations.HostStepIsOneStep : Prop :=
  ∀ s : State,
    (∀ t, step s = .next t → perform .step s = .next (.done, t)) ∧
    (∀ f, step s = .fault f → perform .step s = .fault f) ∧
    ((∃ t, perform .step s = .next (.done, t)) ∨ ∃ f, perform .step s = .fault f)

/-- R231: no operation swallows a fault.  In a session each operation is reported in its place, with its reply or
with the fault it raised; at a step boundary of Run the host is told exactly what such a session tells it, so a
request outside LEVELS gives InvalidInterruptLevel there too (R215).  The form of the reports is the model's (log entry
7). -/
def Obligations.EveryFaultIsReported : Prop :=
  (∀ (ops ops' : List HostOp) (op : HostOp) (s : State),
    (session (ops ++ op :: ops') s).reports[ops.length]? = some (match perform op (session ops s).state with
      | .next (v, _) => .reply v
      | .fault f => .fault f
      | .refused e => .refused e) ∧
    (session (ops ++ [op]) s).state = match perform op (session ops s).state with
      | .next (_, t) => t
      | .fault _ => (session ops s).state
      | .refused _ => (session ops s).state) ∧
  (∀ (ops : List HostOp) (schedule : List (List HostOp)) (s : State),
    s.run = true → (∀ op ∈ ops, op.allowedDuringRun = true) →
    (runLoop (ops :: schedule) s).reports.head? = some (session ops s).reports) ∧
  ∀ (ops ops' : List HostOp) (l : Nat) (schedule : List (List HostOp)) (s : State),
    s.run = true → (∀ op ∈ ops ++ ops', op.allowedDuringRun = true) → l ∉ s.config.levels →
    ∃ told, (runLoop ((ops ++ .requestInterrupt l :: ops') :: schedule) s).reports.head? = some told ∧
      told[ops.length]? = some (.fault (.invalidInterruptLevel l))
end

