-- ==== Sys2Proof/Laws/State.lean ====
section
/-! SUPPORT. One lemma per field of `State` per update, so that no proof unfolds a record update. -/

namespace Sys2Proof.Machine

variable (s : State)

@[simp] theorem State.setA_a (v : Word) : (s.setA v).a = v := rfl
@[simp] theorem State.setA_p (v : Word) : (s.setA v).p = s.p := rfl
@[simp] theorem State.setA_bsel (v : Word) : (s.setA v).bsel = s.bsel := rfl
@[simp] theorem State.setA_mem (v : Word) : (s.setA v).mem = s.mem := rfl
@[simp] theorem State.setA_lock (v : Word) : (s.setA v).lock = s.lock := rfl
@[simp] theorem State.setA_pend (v : Word) : (s.setA v).pend = s.pend := rfl
@[simp] theorem State.setA_run (v : Word) : (s.setA v).run = s.run := rfl
@[simp] theorem State.setA_config (v : Word) : (s.setA v).config = s.config := rfl

@[simp] theorem State.setP_a (v : Word) : (s.setP v).a = s.a := rfl
@[simp] theorem State.setP_p (v : Word) : (s.setP v).p = v := rfl
@[simp] theorem State.setP_bsel (v : Word) : (s.setP v).bsel = s.bsel := rfl
@[simp] theorem State.setP_mem (v : Word) : (s.setP v).mem = s.mem := rfl
@[simp] theorem State.setP_lock (v : Word) : (s.setP v).lock = s.lock := rfl
@[simp] theorem State.setP_pend (v : Word) : (s.setP v).pend = s.pend := rfl
@[simp] theorem State.setP_run (v : Word) : (s.setP v).run = s.run := rfl
@[simp] theorem State.setP_config (v : Word) : (s.setP v).config = s.config := rfl

@[simp] theorem State.setLock_a (l : Lock) : (s.setLock l).a = s.a := rfl
@[simp] theorem State.setLock_p (l : Lock) : (s.setLock l).p = s.p := rfl
@[simp] theorem State.setLock_bsel (l : Lock) : (s.setLock l).bsel = s.bsel := rfl
@[simp] theorem State.setLock_mem (l : Lock) : (s.setLock l).mem = s.mem := rfl
@[simp] theorem State.setLock_lock (l : Lock) : (s.setLock l).lock = l := rfl
@[simp] theorem State.setLock_pend (l : Lock) : (s.setLock l).pend = s.pend := rfl
@[simp] theorem State.setLock_run (l : Lock) : (s.setLock l).run = s.run := rfl
@[simp] theorem State.setLock_config (l : Lock) : (s.setLock l).config = s.config := rfl

@[simp] theorem State.setPend_a (ls : List Nat) : (s.setPend ls).a = s.a := rfl
@[simp] theorem State.setPend_p (ls : List Nat) : (s.setPend ls).p = s.p := rfl
@[simp] theorem State.setPend_bsel (ls : List Nat) : (s.setPend ls).bsel = s.bsel := rfl
@[simp] theorem State.setPend_mem (ls : List Nat) : (s.setPend ls).mem = s.mem := rfl
@[simp] theorem State.setPend_lock (ls : List Nat) : (s.setPend ls).lock = s.lock := rfl
@[simp] theorem State.setPend_pend (ls : List Nat) : (s.setPend ls).pend = ls := rfl
@[simp] theorem State.setPend_run (ls : List Nat) : (s.setPend ls).run = s.run := rfl
@[simp] theorem State.setPend_config (ls : List Nat) : (s.setPend ls).config = s.config := rfl

@[simp] theorem State.setRun_a (v : Bool) : (s.setRun v).a = s.a := rfl
@[simp] theorem State.setRun_p (v : Bool) : (s.setRun v).p = s.p := rfl
@[simp] theorem State.setRun_bsel (v : Bool) : (s.setRun v).bsel = s.bsel := rfl
@[simp] theorem State.setRun_mem (v : Bool) : (s.setRun v).mem = s.mem := rfl
@[simp] theorem State.setRun_lock (v : Bool) : (s.setRun v).lock = s.lock := rfl
@[simp] theorem State.setRun_pend (v : Bool) : (s.setRun v).pend = s.pend := rfl
@[simp] theorem State.setRun_run (v : Bool) : (s.setRun v).run = v := rfl
@[simp] theorem State.setRun_config (v : Bool) : (s.setRun v).config = s.config := rfl

@[simp] theorem State.setMem_a (m : Memory) : (s.setMem m).a = s.a := rfl
@[simp] theorem State.setMem_p (m : Memory) : (s.setMem m).p = s.p := rfl
@[simp] theorem State.setMem_bsel (m : Memory) : (s.setMem m).bsel = s.bsel := rfl
@[simp] theorem State.setMem_mem (m : Memory) : (s.setMem m).mem = m := rfl
@[simp] theorem State.setMem_lock (m : Memory) : (s.setMem m).lock = s.lock := rfl
@[simp] theorem State.setMem_pend (m : Memory) : (s.setMem m).pend = s.pend := rfl
@[simp] theorem State.setMem_run (m : Memory) : (s.setMem m).run = s.run := rfl
@[simp] theorem State.setMem_config (m : Memory) : (s.setMem m).config = s.config := rfl

@[simp] theorem State.setBsel_a (role : Role) (x : BankNo) : (s.setBsel role x).a = s.a := rfl
@[simp] theorem State.setBsel_p (role : Role) (x : BankNo) : (s.setBsel role x).p = s.p := rfl
@[simp] theorem State.setBsel_bsel (role : Role) (x : BankNo) : (s.setBsel role x).bsel = s.bsel.set role x := rfl
@[simp] theorem State.setBsel_mem (role : Role) (x : BankNo) : (s.setBsel role x).mem = s.mem := rfl
@[simp] theorem State.setBsel_lock (role : Role) (x : BankNo) : (s.setBsel role x).lock = s.lock := rfl
@[simp] theorem State.setBsel_pend (role : Role) (x : BankNo) : (s.setBsel role x).pend = s.pend := rfl
@[simp] theorem State.setBsel_run (role : Role) (x : BankNo) : (s.setBsel role x).run = s.run := rfl
@[simp] theorem State.setBsel_config (role : Role) (x : BankNo) : (s.setBsel role x).config = s.config := rfl

@[simp] theorem State.advance_a (n : Word) : (s.advance n).a = s.a := rfl
@[simp] theorem State.advance_p (n : Word) : (s.advance n).p = s.p + n := rfl
@[simp] theorem State.advance_bsel (n : Word) : (s.advance n).bsel = s.bsel := rfl
@[simp] theorem State.advance_mem (n : Word) : (s.advance n).mem = s.mem := rfl
@[simp] theorem State.advance_lock (n : Word) : (s.advance n).lock = s.lock := rfl
@[simp] theorem State.advance_pend (n : Word) : (s.advance n).pend = s.pend := rfl
@[simp] theorem State.advance_run (n : Word) : (s.advance n).run = s.run := rfl
@[simp] theorem State.advance_config (n : Word) : (s.advance n).config = s.config := rfl

/-! ### The bank selects -/

@[simp] theorem BankSelects.get_set_same (b : BankSelects) (role : Role) (x : BankNo) : (b.set role x).get role = x := by
  cases role <;> rfl

@[simp] theorem BankSelects.get_set_other (b : BankSelects) {role role' : Role} (h : role' ≠ role) (x : BankNo) :
    (b.set role x).get role' = b.get role' := by
  cases role <;> cases role' <;> first | exact absurd rfl h | rfl

@[simp] theorem BankSelects.get_b (b : BankSelects) : b.get .b = b.b := rfl
@[simp] theorem BankSelects.get_d (b : BankSelects) : b.get .d = b.d := rfl
@[simp] theorem BankSelects.get_i (b : BankSelects) : b.get .i = b.i := rfl
@[simp] theorem BankSelects.get_r (b : BankSelects) : b.get .r = b.r := rfl

end Sys2Proof.Machine
end

