-- ==== Sys2Proof/Laws/Memory.lean ====
section
/-! SUPPORT. Memory: read after write, the canonical form, and what `memRead` and `memWrite` can do
(spec/20_memory.md R50 to R55). -/

namespace Sys2Proof.Machine

/-! ### The list of cells -/

theorem Memory.lookup_insert_same (m : Memory) (k : Nat) (v : Word) : (m.insert k v).lookup k = some v := by
  induction m with
  | nil => simp [Memory.insert, Memory.lookup]
  | cons c m ih =>
    simp only [Memory.insert]
    split
    · simp [Memory.lookup]
    · split
      · simp [Memory.lookup]
      · rename_i h
        simp [Memory.lookup, h, ih]

theorem Memory.lookup_insert_other (m : Memory) {k k' : Nat} (h : k' ≠ k) (v : Word) :
    (m.insert k v).lookup k' = m.lookup k' := by
  induction m with
  | nil => simp [Memory.insert, Memory.lookup, h]
  | cons c m ih =>
    simp only [Memory.insert]
    split
    · simp [Memory.lookup, h]
    · split
      · rename_i hk
        subst hk
        simp [Memory.lookup, h]
      · simp [Memory.lookup, ih]

/-- A cell of the memory after a write is the written one or was there before. -/
theorem Memory.mem_insert {m : Memory} {k : Nat} {v : Word} {c : Nat × Word} (h : c ∈ m.insert k v) :
    c = (k, v) ∨ c ∈ m := by
  induction m with
  | nil => simpa [Memory.insert] using h
  | cons c' m ih =>
    simp only [Memory.insert] at h
    split at h
    · simpa using h
    · split at h
      · rcases List.mem_cons.1 h with h | h
        · exact .inl h
        · exact .inr (List.mem_cons_of_mem _ h)
      · rcases List.mem_cons.1 h with h | h
        · exact .inr (h ▸ List.mem_cons_self)
        · rcases ih h with h | h
          · exact .inl h
          · exact .inr (List.mem_cons_of_mem _ h)

/-- Every memory operation keeps the canonical form: this is the only one that changes a memory. -/
theorem Memory.insert_wf {m : Memory} (h : Memory.wf m) (k : Nat) (v : Word) : Memory.wf (m.insert k v) := by
  induction m with
  | nil => simp [Memory.insert, Memory.wf]
  | cons c m ih =>
    obtain ⟨hc, hm⟩ := List.pairwise_cons.1 h
    simp only [Memory.insert]
    split
    · rename_i hlt
      refine List.pairwise_cons.2 ⟨fun c' hc' => ?_, h⟩
      rcases List.mem_cons.1 hc' with rfl | hc'
      · exact hlt
      · exact lt_trans hlt (hc c' hc')
    · split
      · rename_i heq
        exact List.pairwise_cons.2 ⟨fun c' hc' => heq ▸ hc c' hc', hm⟩
      · rename_i hnlt hne
        refine List.pairwise_cons.2 ⟨fun c' hc' => ?_, ih hm⟩
        rcases Memory.mem_insert hc' with rfl | hc'
        · exact lt_of_le_of_ne (Nat.le_of_not_lt hnlt) (Ne.symm hne)
        · exact hc c' hc'

theorem Memory.reset_wf : Memory.wf State.reset.mem := List.Pairwise.nil

/-- Different cells have different numbers (R37). -/
theorem cellNumber_inj {bank bank' : BankNo} {addr addr' : Word}
    (h : cellNumber bank addr = cellNumber bank' addr') : bank = bank' ∧ addr = addr' := by
  simp only [cellNumber, bankSize] at h
  have h1 := addr.isLt
  have h2 := addr'.isLt
  exact ⟨BitVec.eq_of_toNat_eq (by omega), BitVec.eq_of_toNat_eq (by omega)⟩

/-- A cell of an existing bank is within the memory (R37). -/
theorem cellNumber_lt {bank : BankNo} {n : Nat} (h : bank.toNat < n) (addr : Word) :
    cellNumber bank addr < n * bankSize := by
  simp only [cellNumber, bankSize]
  have := addr.isLt
  omega

/-! ### Cells -/

/-- A cell depends on the memory and the launch image only. -/
theorem State.cell_congr {s t : State} (hm : t.mem = s.mem) (hc : t.config = s.config) (bank : BankNo) (addr : Word) :
    t.cell bank addr = s.cell bank addr := by
  simp only [State.cell, hm, hc]

theorem State.cell_write_same (s : State) (bank : BankNo) (addr v : Word) :
    (s.setMem (s.mem.insert (cellNumber bank addr) v)).cell bank addr = v := by
  simp [State.cell, Memory.lookup_insert_same]

theorem State.cell_write_other (s : State) {bank bank' : BankNo} {addr addr' : Word}
    (h : ¬(bank' = bank ∧ addr' = addr)) (v : Word) :
    (s.setMem (s.mem.insert (cellNumber bank addr) v)).cell bank' addr' = s.cell bank' addr' := by
  have hne : cellNumber bank' addr' ≠ cellNumber bank addr := fun hk => h (cellNumber_inj hk)
  simp [State.cell, Memory.lookup_insert_other _ hne]

/-! ### Admission and the two accesses -/

@[simp] theorem State.bankExists_iff (s : State) (role : Role) :
    s.bankExists role = true ↔ (s.bsel.get role).toNat < s.config.numBanks := by
  simp [State.bankExists]

/-- With eight banks every select names an existing one (R51). -/
theorem State.bankExists_of_eight {s : State} (h : s.config.numBanks = 8) (role : Role) : s.bankExists role = true := by
  have := (s.bsel.get role).isLt
  simp only [State.bankExists_iff, h]
  omega

theorem memRead_ok {role : Role} {s : State} (h : s.bankExists role = true) (addr : Word) :
    memRead role addr s = .ok (s.roleCell role addr) := by
  simp [memRead, h]

theorem memRead_error {role : Role} {s : State} (h : s.bankExists role = false) (addr : Word) :
    memRead role addr s = .error (.addressFault role addr.toNat) := by
  simp [memRead, h]

/-- Everything a write can do (R53). -/
theorem memWrite_cases (role : Role) (addr v : Word) (s : State) :
    (s.bankExists role = true ∧
      memWrite role addr v s = .ok (s.setMem (s.mem.insert (cellNumber (s.bsel.get role) addr) v))) ∨
    (s.bankExists role = false ∧ memWrite role addr v s = .error (.addressFault role addr.toNat)) := by
  cases h : s.bankExists role <;> simp [memWrite, h]

theorem memWrite_keeps_wf {role : Role} {addr v : Word} {s t : State} (h : memWrite role addr v s = .ok t)
    (hs : Memory.wf s.mem) : Memory.wf t.mem := by
  rcases memWrite_cases role addr v s with ⟨_, h'⟩ | ⟨_, h'⟩ <;> rw [h'] at h
  · cases h
    exact Memory.insert_wf hs _ _
  · cases h

theorem memWrite_keeps_within {role : Role} {addr v : Word} {s t : State} (h : memWrite role addr v s = .ok t)
    (hs : Memory.within s.mem s.config) : Memory.within t.mem t.config := by
  rcases memWrite_cases role addr v s with ⟨hb, h'⟩ | ⟨_, h'⟩ <;> rw [h'] at h
  · cases h
    intro c hc
    rcases Memory.mem_insert hc with rfl | hc
    · exact cellNumber_lt ((State.bankExists_iff s role).1 hb) addr
    · exact hs c hc
  · cases h

end Sys2Proof.Machine
end

