-- ==== Sys2Proof/Laws/Pending.lean ====
section
/-! SUPPORT. The pending set and the arbiter (spec/10_state.md R33, spec/60_exceptions.md R241). -/

namespace Sys2Proof.Machine

@[simp] theorem mem_insertLevel (l l' : Nat) (pend : List Nat) : l' ∈ insertLevel l pend ↔ l' = l ∨ l' ∈ pend := by
  induction pend with
  | nil => simp [insertLevel]
  | cons x xs ih =>
    simp only [insertLevel]
    split
    · simp
    · split
      · rename_i h
        simp [h]
      · simp only [List.mem_cons, ih]
        tauto

theorem insertLevel_rising {pend : List Nat} (h : pend.Pairwise (· < ·)) (l : Nat) :
    (insertLevel l pend).Pairwise (· < ·) := by
  induction pend with
  | nil => simp [insertLevel]
  | cons x xs ih =>
    obtain ⟨hx, hxs⟩ := List.pairwise_cons.1 h
    simp only [insertLevel]
    split
    · rename_i hlt
      refine List.pairwise_cons.2 ⟨fun y hy => ?_, h⟩
      rcases List.mem_cons.1 hy with rfl | hy
      · exact hlt
      · exact lt_trans hlt (hx y hy)
    · split
      · exact h
      · rename_i hnlt hne
        refine List.pairwise_cons.2 ⟨fun y hy => ?_, ih hxs⟩
        rcases (mem_insertLevel l y xs).1 hy with rfl | hy
        · exact lt_of_le_of_ne (Nat.le_of_not_lt hnlt) (Ne.symm hne)
        · exact hx y hy

/-- A request of a level that is already pending is absorbed (R206). -/
theorem insertLevel_of_mem {pend : List Nat} (h : pend.Pairwise (· < ·)) {l : Nat} (hl : l ∈ pend) :
    insertLevel l pend = pend := by
  induction pend with
  | nil => cases hl
  | cons x xs ih =>
    obtain ⟨hx, hxs⟩ := List.pairwise_cons.1 h
    simp only [insertLevel]
    rcases List.mem_cons.1 hl with rfl | hl
    · simp
    · have := hx l hl
      rw [if_neg (by omega), if_neg (by omega), ih hxs hl]

@[simp] theorem mem_removeLevel (l l' : Nat) (pend : List Nat) : l' ∈ removeLevel l pend ↔ l' ∈ pend ∧ l' ≠ l := by
  simp [removeLevel]

theorem removeLevel_rising {pend : List Nat} (h : pend.Pairwise (· < ·)) (l : Nat) :
    (removeLevel l pend).Pairwise (· < ·) := h.filter _

/-- The arbiter selects a member of the set, whatever the policy (R241). -/
theorem select_mem {priority : Priority} {pend : List Nat} {l : Nat} (h : select priority pend = some l) : l ∈ pend := by
  simp only [select] at h
  split at h
  · split at h
    · cases h
      assumption
    · exact List.min?_mem h
  · exact List.min?_mem h

@[simp] theorem select_nil (priority : Priority) : select priority [] = none := by
  simp only [select]
  split <;> simp

/-- Something pending is always selected. -/
theorem select_isSome {pend : List Nat} (h : pend ≠ []) (priority : Priority) : ∃ l, select priority pend = some l := by
  obtain ⟨m, hm⟩ := Option.ne_none_iff_exists'.1 (fun h' : pend.min? = none => h (List.min?_eq_none_iff.1 h'))
  simp only [select]
  split
  · split
    · exact ⟨_, rfl⟩
    · exact ⟨m, hm⟩
  · exact ⟨m, hm⟩

/-- When a step enters an interrupt (spec/40_cycle.md R110, spec/10_state.md R40 I4). -/
theorem enteredLevel_eq_some {s : State} {l : Nat} :
    s.enteredLevel = some l ↔ s.lock = .free ∧ select s.config.priority s.pend = some l := by
  cases h : s.lock <;> simp [State.enteredLevel, h]

theorem enteredLevel_eq_none {s : State} : s.enteredLevel = none ↔ s.lock ≠ .free ∨ s.pend = [] := by
  constructor
  · intro h
    by_contra hc
    push Not at hc
    obtain ⟨l, hl⟩ := select_isSome hc.2 s.config.priority
    rw [enteredLevel_eq_some.2 ⟨hc.1, hl⟩] at h
    cases h
  · rintro (h | h)
    · cases hl : s.lock <;> simp_all [State.enteredLevel]
    · cases hl : s.lock <;> simp [State.enteredLevel, hl, h]

end Sys2Proof.Machine
end

