-- ==== Sys2Proof/Laws/Console.lean ====
section
/-! SUPPORT. What each host operation, a session and one boundary of Run can do (spec/50_host_interface.md R200 to R214;
spec/40_cycle.md R118, R119). -/

namespace Sys2Proof.Machine

/-! ### Single operations -/

/-- A READ that completes changes nothing (R200). -/
theorem perform_read_next {role : Role} {addr : Nat} {s t : State} {v : Reply}
    (h : perform (.read role addr) s = .next (v, t)) : t = s := by
  simp only [perform, hostRead] at h
  split at h
  · split at h <;> cases h
    rfl
  · cases h

/-- A WRITE that completes has written one cell of an existing bank (R201). -/
theorem perform_write_next {role : Role} {addr v : Nat} {s t : State} {w : Reply}
    (h : perform (.write role addr v) s = .next (w, t)) :
    addr < bankSize ∧ s.bankExists role = true ∧ w = .done ∧
      t = s.setMem (s.mem.insert (cellNumber (s.bsel.get role) (trunc12 addr)) (trunc12 v)) := by
  simp only [perform, hostWrite] at h
  split at h
  · rename_i ha
    cases hb : s.bankExists role with
    | false => simp [memWrite, hb] at h
    | true =>
      simp only [memWrite, hb, if_true] at h
      cases h
      exact ⟨ha, rfl, rfl, rfl⟩
  · cases h

/-- A request that completes has added a valid level (R206). -/
theorem perform_requestInterrupt_next {l : Nat} {s t : State} {v : Reply}
    (h : perform (.requestInterrupt l) s = .next (v, t)) :
    l ∈ s.config.levels ∧ t = s.setPend (insertLevel l s.pend) := by
  simp only [perform, hostRequest] at h
  split at h
  · cases h
    exact ⟨‹_›, rfl⟩
  · cases h

/-- A request of a level that does not exist faults (R206, R235). -/
theorem perform_requestInterrupt_invalid {l : Nat} {s : State} (h : l ∉ s.config.levels) :
    perform (.requestInterrupt l) s = .fault (.invalidInterruptLevel l) := by
  simp [perform, hostRequest, h]

/-- STEP completes exactly as a step does (R213). -/
theorem perform_step_next {s t : State} {v : Reply} (h : perform .step s = .next (v, t)) :
    v = .done ∧ step s = .next t := by
  simp only [perform, hostStep] at h
  split at h <;> cases h
  exact ⟨rfl, ‹_›⟩

/-! ### What the host is told -/

theorem respond_of_next {op : HostOp} {s t : State} {v : Reply} (h : perform op s = .next (v, t)) :
    respond op s = (.reply v, t) := by
  simp only [respond, h]

/-- A fault is told, and leaves the state as it was (R231, R232). -/
theorem respond_of_fault {op : HostOp} {s : State} {f : Fault} (h : perform op s = .fault f) :
    respond op s = (.fault f, s) := by
  simp only [respond, h]

/-- Everything an operation R214 allows during Run can change: PEND and RUN. -/
theorem respond_of_allowed {op : HostOp} (h : op.allowedDuringRun = true) (s : State) :
    { (respond op s).2 with pend := s.pend, run := s.run } = s := by
  cases op <;> simp [HostOp.allowedDuringRun] at h
  case read role addr =>
    simp only [respond]
    split <;> first | rfl | (rename_i heq; rw [perform_read_next heq])
  case requestInterrupt l =>
    simp only [respond]
    split <;> first | rfl | (rename_i heq; rw [(perform_requestInterrupt_next heq).2]; rfl)
  all_goals rfl

/-! ### Sessions -/

@[simp] theorem session_nil (s : State) : session [] s = ⟨[], s⟩ := rfl

@[simp] theorem session_cons (op : HostOp) (ops : List HostOp) (s : State) :
    session (op :: ops) s =
      ⟨(respond op s).1 :: (session ops (respond op s).2).reports, (session ops (respond op s).2).state⟩ := rfl

/-- A session is its first part, and its second part from the state the first left. -/
theorem session_append (ops ops' : List HostOp) (s : State) :
    session (ops ++ ops') s =
      ⟨(session ops s).reports ++ (session ops' (session ops s).state).reports,
        (session ops' (session ops s).state).state⟩ := by
  induction ops generalizing s with
  | nil => rfl
  | cons op ops ih => simp [ih]

/-- Every operation is reported. -/
@[simp] theorem session_reports_length (ops : List HostOp) (s : State) :
    (session ops s).reports.length = ops.length := by
  induction ops generalizing s with
  | nil => rfl
  | cons op ops ih => simp [ih]

/-- Everything a boundary of Run can change: PEND and RUN. -/
theorem session_of_allowed {ops : List HostOp} (h : ∀ op ∈ ops, op.allowedDuringRun = true) (s : State) :
    { (session ops s).state with pend := s.pend, run := s.run } = s := by
  induction ops generalizing s with
  | nil => rfl
  | cons op ops ih =>
    have rest := ih (fun o ho => h o (List.mem_cons_of_mem _ ho)) (respond op s).2
    have first := respond_of_allowed (h op List.mem_cons_self) s
    rw [← rest] at first
    exact first

/-! ### Run -/

theorem allowed_of_mem_allowedPrefix {ops : List HostOp} {op : HostOp} (h : op ∈ allowedPrefix ops) :
    op.allowedDuringRun = true := List.mem_takeWhile_imp h

theorem firstNotAllowed_eq_some {ops : List HostOp} {op : HostOp} (h : firstNotAllowed ops = some op) :
    op.allowedDuringRun = false := by
  simpa using List.find?_some h

@[simp] theorem firstNotAllowed_eq_none {ops : List HostOp} :
    firstNotAllowed ops = none ↔ ∀ op ∈ ops, op.allowedDuringRun = true := by
  simp [firstNotAllowed]

theorem allowedPrefix_of_allowed {ops : List HostOp} (h : ∀ op ∈ ops, op.allowedDuringRun = true) :
    allowedPrefix ops = ops := List.takeWhile_eq_self_iff.2 h

@[simp] theorem runLoop_nil (s : State) : runLoop [] s = ⟨[], if s.run then .running s else .returned s⟩ := rfl

/-- Run with RUN false performs no cycle (R118). -/
theorem runLoop_of_stopped (schedule : List (List HostOp)) {s : State} (h : s.run = false) :
    runLoop schedule s = ⟨[], .returned s⟩ := by
  cases schedule <;> simp [runLoop, h]

/-- One boundary of Run, all of it allowed, and the step after it. -/
theorem runLoop_of_allowed {ops : List HostOp} (schedule : List (List HostOp)) {s : State} (hr : s.run = true)
    (h : ∀ op ∈ ops, op.allowedDuringRun = true) :
    runLoop (ops :: schedule) s =
      if (session ops s).state.run then
        match step (session ops s).state with
        | .next u => ⟨(session ops s).reports :: (runLoop schedule u).reports, (runLoop schedule u).ending⟩
        | .fault f => ⟨[(session ops s).reports], .faulted f (session ops s).state⟩
        | .refused e => ⟨[(session ops s).reports], .refused e (session ops s).state⟩
      else ⟨[(session ops s).reports], .returned (session ops s).state⟩ := by
  cases hs : step (session ops s).state <;>
    simp only [runLoop, hr, if_true, firstNotAllowed_eq_none.2 h, allowedPrefix_of_allowed h, hs]

/-- A boundary of Run with an operation that is not allowed ends it there. -/
theorem runLoop_of_notAllowed {ops : List HostOp} (schedule : List (List HostOp)) {s : State} {op : HostOp}
    (hr : s.run = true) (h : firstNotAllowed ops = some op) :
    runLoop (ops :: schedule) s =
      ⟨[(session (allowedPrefix ops) s).reports], .notAllowed op (session (allowedPrefix ops) s).state⟩ := by
  simp only [runLoop, hr, if_true, h]

end Sys2Proof.Machine
end

