-- ==== Sys2Proof/Laws/Decode.lean ====
section
/-! SUPPORT. The decoder: when the second word matters, and everything `decode` can answer (spec/30_encoding.md R83, R99). -/

namespace Sys2Proof

/-- Only the two-word instructions look at the word after the first (R82). -/
theorem decodeFirst_second {w : Word} (h : isTwoWord w = false) (g g' : Word) : decodeFirst w g = decodeFirst w g' := by
  simp only [isTwoWord, Bool.or_eq_false_iff, beq_eq_false_iff_ne, ne_eq] at h
  simp [decodeFirst, h.1, h.2]

/-- A two-word first word decodes to LDM or LDC with the word after it (R82). -/
theorem decodeFirst_twoWord {w : Word} (h : isTwoWord w = true) (g : Word) :
    (w = 0o2100 ∧ decodeFirst w g = some (.ldm g)) ∨ (w = 0o2200 ∧ decodeFirst w g = some (.ldc g)) := by
  simp only [isTwoWord, Bool.or_eq_true, beq_iff_eq] at h
  rcases h with rfl | rfl
  · exact .inl ⟨rfl, rfl⟩
  · exact .inr ⟨rfl, rfl⟩

/-- Everything a successful decode can be: one word, or two. -/
theorem decode_ok_cases {ws : List Word} {i : Instr} {rest : List Word} (h : decode ws = .ok (i, rest)) :
    (∃ w, ws = w :: rest ∧ isTwoWord w = false ∧ ∀ g, decodeFirst w g = some i) ∨
    (∃ w g, ws = w :: g :: rest ∧ isTwoWord w = true ∧ decodeFirst w g = some i) := by
  cases ws with
  | nil => cases h
  | cons w ws =>
    simp only [decode] at h
    cases hw : isTwoWord w with
    | false =>
      rw [hw] at h
      simp only [Bool.false_eq_true, if_false] at h
      cases hd : decodeFirst w 0 with
      | none => rw [hd] at h; cases h
      | some j =>
        rw [hd] at h
        cases h
        exact .inl ⟨w, rfl, hw, fun g => (decodeFirst_second hw g 0).trans hd⟩
    | true =>
      rw [hw] at h
      simp only [if_true] at h
      cases ws with
      | nil => cases h
      | cons g rest' =>
        simp only at h
        cases hd : decodeFirst w g with
        | none => rw [hd] at h; cases h
        | some j =>
          rw [hd] at h
          cases h
          exact .inr ⟨w, g, rfl, hw, hd⟩

/-- Two words in memory decode to the instruction their first word names. -/
theorem decodeFirst_of_decode {w g : Word} {i : Instr} {rest : List Word} (h : decode [w, g] = .ok (i, rest)) :
    decodeFirst w g = some i := by
  rcases decode_ok_cases h with ⟨w', hws, _, hd⟩ | ⟨w', g', hws, _, hd⟩
  · obtain ⟨rfl, _⟩ := List.cons.inj hws
    exact hd g
  · obtain ⟨rfl, hg⟩ := List.cons.inj hws
    obtain ⟨rfl, _⟩ := List.cons.inj hg
    exact hd

end Sys2Proof
end

