-- ==== Sys2Proof/Laws/Exec.lean ====
section
/-! SUPPORT. What each shared operation of the meanings can do: one lemma per operation, which proofs cite instead of
unfolding it. -/

namespace Sys2Proof.Machine

/-! ### Reads and operands -/

@[simp] theorem readThen_of_exists {role : Role} {s : State} (h : s.bankExists role = true) (addr : Word)
    (k : Word → Result) : readThen role addr s k = k (s.roleCell role addr) := by
  simp [readThen, memRead_ok h]

@[simp] theorem readThen_of_missing {role : Role} {s : State} (h : s.bankExists role = false) (addr : Word)
    (k : Word → Result) : readThen role addr s k = .fault (.addressFault role addr.toNat) := by
  simp [readThen, memRead_error h]

/-- If a read goes on to a next state, its bank exists and what followed got the cell's word. -/
theorem readThen_next {role : Role} {addr : Word} {s t : State} {k : Word → Result}
    (h : readThen role addr s k = .next t) : s.bankExists role = true ∧ k (s.roleCell role addr) = .next t := by
  cases hb : s.bankExists role with
  | false => rw [readThen_of_missing hb] at h; cases h
  | true => exact ⟨rfl, by rwa [readThen_of_exists hb] at h⟩

/-- If a read ends in a fault, it is the read's own, through a missing bank, or that of what followed. -/
theorem readThen_fault {role : Role} {addr : Word} {s : State} {k : Word → Result} {f : Fault}
    (h : readThen role addr s k = .fault f) :
    (s.bankExists role = false ∧ f = .addressFault role addr.toNat) ∨
    (s.bankExists role = true ∧ k (s.roleCell role addr) = .fault f) := by
  cases hb : s.bankExists role with
  | false => rw [readThen_of_missing hb] at h; cases h; exact .inl ⟨rfl, rfl⟩
  | true => exact .inr ⟨rfl, by rwa [readThen_of_exists hb] at h⟩

/-- If an operand is read and what follows answers a next state, what followed got some word. -/
theorem operandThen_next {mode : Mode} {s t : State} {k : Word → Result} (h : operandThen mode s k = .next t) :
    ∃ v, k v = .next t := by
  cases mode with
  | n e => exact ⟨_, h⟩
  | c g => exact ⟨_, h⟩
  | d e => exact ⟨_, (readThen_next h).2⟩
  | m g => exact ⟨_, (readThen_next h).2⟩
  | f e => exact ⟨_, (readThen_next h).2⟩
  | b e => exact ⟨_, (readThen_next h).2⟩
  | i e => exact ⟨_, (readThen_next (readThen_next h).2).2⟩

/-- If an operand ends in a fault and what follows never does, the fault is an AddressFault through d, i or r, whose
select names a missing bank (spec/20_memory.md R56). -/
theorem operandThen_fault {mode : Mode} {s : State} {k : Word → Result} {f : Fault}
    (hk : ∀ v f', k v ≠ .fault f') (h : operandThen mode s k = .fault f) :
    ∃ role addr, f = .addressFault role addr ∧ role ≠ .b ∧ s.bankExists role = false := by
  have read : ∀ {role : Role} {addr : Word}, role ≠ .b → readThen role addr s k = .fault f →
      ∃ role addr, f = .addressFault role addr ∧ role ≠ .b ∧ s.bankExists role = false := by
    intro role addr hr h
    rcases readThen_fault h with ⟨hb, hf⟩ | ⟨_, hf⟩
    · exact ⟨role, _, hf, hr, hb⟩
    · exact absurd hf (hk _ _)
  cases mode with
  | n e => exact absurd h (hk _ _)
  | c g => exact absurd h (hk _ _)
  | d e => exact read (by decide) h
  | m g => exact read (by decide) h
  | f e => exact read (by decide) h
  | b e => exact read (by decide) h
  | i e =>
    rcases readThen_fault h with ⟨hb, hf⟩ | ⟨_, h'⟩
    · exact ⟨.d, _, hf, by decide, hb⟩
    · exact read (by decide) h'

/-- A read or an operand refuses only if what follows does. -/
theorem operandThen_ne_refused {mode : Mode} {s : State} {k : Word → Result} {e : Refusal}
    (hk : ∀ v, k v ≠ .refused e) : operandThen mode s k ≠ .refused e := by
  have read : ∀ (role : Role) (addr : Word) (k : Word → Result), (∀ v, k v ≠ .refused e) →
      readThen role addr s k ≠ .refused e := by
    intro role addr k hk h
    cases hb : s.bankExists role with
    | false => rw [readThen_of_missing hb] at h; cases h
    | true => rw [readThen_of_exists hb] at h; exact hk _ h
  cases mode with
  | n e => exact hk _
  | c g => exact hk _
  | d e => exact read _ _ _ hk
  | m g => exact read _ _ _ hk
  | f e => exact read _ _ _ hk
  | b e => exact read _ _ _ hk
  | i e => exact read _ _ _ fun v => read _ _ _ hk

/-! ### The shared meanings -/

/-- A load writes A and P only. -/
theorem loadA_next {mode : Mode} {s t : State} (h : loadA mode s = .next t) :
    ∃ v, t = (s.setA v).advance mode.words := by
  obtain ⟨v, hv⟩ := operandThen_next h
  exact ⟨v, (Host.Outcome.next.inj hv).symm⟩

/-- A jump through a pointer writes P only. -/
theorem jumpVia_next {mode : Mode} {s t : State} (h : jumpVia mode s = .next t) : ∃ v, t = s.setP v := by
  obtain ⟨v, hv⟩ := operandThen_next h
  exact ⟨v, (Host.Outcome.next.inj hv).symm⟩

/-- A conditional jump always completes and writes P only. -/
theorem jumpIf_eq (c : Condition) (target : Word) (s : State) :
    jumpIf c target s = .next (s.setP (if c.holds s.a then target else s.p + 1)) := by
  cases h : c.holds s.a <;> simp [jumpIf, h, State.advance]

/-- Everything CIL can do to the lock (spec/43_control.md R174). -/
theorem beginUnlock_eq (s : State) :
    beginUnlock s = s.setLock (if s.lock = .locked then .unlockPending else s.lock) := by
  obtain ⟨a, p, bsel, mem, lock, pend, run, config⟩ := s
  cases lock <;> rfl

/-- Everything the end of a normal step can do to the lock (spec/40_cycle.md R115). -/
theorem advanceUnlock_eq (lock0 : Lock) (s : State) :
    advanceUnlock lock0 s = s.setLock (if lock0 = .unlockPending then .free else s.lock) := by
  cases lock0 <;> rfl

/-- The selects after a setter: those named hold the bank number, the others are unchanged (R28). -/
theorem setSelects_get (roles : List Role) (x : BankNo) (s : State) (role : Role) :
    (setSelects roles x s).bsel.get role = if role ∈ roles then x else s.bsel.get role := by
  induction roles generalizing s with
  | nil => simp [setSelects]
  | cons role0 rs ih =>
    have h := ih (s.setBsel role0 x)
    simp only [setSelects, List.foldl_cons] at h ⊢
    rw [h]
    by_cases hr : role = role0
    · subst hr
      simp
    · simp [hr, BankSelects.get_set_other]

/-- A setter's selects are all it writes before P moves. -/
theorem setSelects_frame (roles : List Role) (x : BankNo) (s : State) :
    setSelects roles x s = { s with bsel := (setSelects roles x s).bsel } := by
  induction roles generalizing s with
  | nil => rfl
  | cons role0 rs ih =>
    have h := ih (s.setBsel role0 x)
    simp only [setSelects, List.foldl_cons] at h ⊢
    rw [h]
    rfl

/-- A reserved word under a policy (spec/30_encoding.md R96, R97). -/
theorem execReserved_next {w : Word} {s t : State} (h : execReserved w s = .next t) :
    (s.config.illegalPolicy = .nop ∧ t = s.advance 1) ∨
    (s.config.illegalPolicy = .halt ∧ t = (s.setRun false).advance 1) := by
  cases hp : s.config.illegalPolicy with
  | fault => simp [execReserved, hp] at h
  | nop =>
    simp only [execReserved, hp, doNothing] at h
    exact .inl ⟨rfl, (Host.Outcome.next.inj h).symm⟩
  | halt =>
    simp only [execReserved, hp, halt] at h
    exact .inr ⟨rfl, (Host.Outcome.next.inj h).symm⟩

/-! ### Each arm of `exec`, as the shared operation it is -/

theorem exec_ldn (e : Field) (s : State) : exec (.ldn e) s = loadA (.n e) s := rfl
theorem exec_lcn (e : Field) (s : State) : exec (.lcn e) s = .next ((s.setA (~~~(zext12 e))).advance 1) := rfl
theorem exec_ldd (e : Field) (s : State) : exec (.ldd e) s = loadA (.d e) s := rfl
theorem exec_ldi (e : Field) (s : State) : exec (.ldi e) s = loadA (.i e) s := rfl
theorem exec_ldm (g : Word) (s : State) : exec (.ldm g) s = loadA (.m g) s := rfl
theorem exec_ldf (e : Field) (s : State) : exec (.ldf e) s = loadA (.f e) s := rfl
theorem exec_ldc (g : Word) (s : State) : exec (.ldc g) s = loadA (.c g) s := rfl
theorem exec_ldb (e : Field) (s : State) : exec (.ldb e) s = loadA (.b e) s := rfl
theorem exec_zjf (e : Field) (s : State) : exec (.zjf e) s = jumpIf .zero (forward s.p e) s := rfl
theorem exec_nzf (e : Field) (s : State) : exec (.nzf e) s = jumpIf .nonZero (forward s.p e) s := rfl
theorem exec_pjf (e : Field) (s : State) : exec (.pjf e) s = jumpIf .positive (forward s.p e) s := rfl
theorem exec_njf (e : Field) (s : State) : exec (.njf e) s = jumpIf .negative (forward s.p e) s := rfl
theorem exec_zjb (e : Field) (s : State) : exec (.zjb e) s = jumpIf .zero (backward s.p e) s := rfl
theorem exec_nzb (e : Field) (s : State) : exec (.nzb e) s = jumpIf .nonZero (backward s.p e) s := rfl
theorem exec_pjb (e : Field) (s : State) : exec (.pjb e) s = jumpIf .positive (backward s.p e) s := rfl
theorem exec_njb (e : Field) (s : State) : exec (.njb e) s = jumpIf .negative (backward s.p e) s := rfl
theorem exec_jpi (e : Field) (s : State) : exec (.jpi e) s = jumpVia (.d e) s := rfl
theorem exec_jfi (e : Field) (s : State) : exec (.jfi e) s = jumpVia (.f e) s := rfl
theorem exec_nop (x : BankNo) (s : State) : exec (.nop x) s = .next (s.advance 1) := rfl
theorem exec_hlt (e : Field) (s : State) : exec (.hlt e) s = .next ((s.setRun false).advance 1) := rfl
theorem exec_cil (s : State) : exec .cil s = .next ((beginUnlock s).advance 1) := rfl
theorem exec_srj (x : BankNo) (s : State) : exec (.srj x) s = setAndJump [.r] x s := rfl
theorem exec_sic (x : BankNo) (s : State) : exec (.sic x) s = setAndContinue [.i] x s := rfl
theorem exec_irj (x : BankNo) (s : State) : exec (.irj x) s = setAndJump [.i, .r] x s := rfl
theorem exec_sdc (x : BankNo) (s : State) : exec (.sdc x) s = setAndContinue [.d] x s := rfl
theorem exec_drj (x : BankNo) (s : State) : exec (.drj x) s = setAndJump [.d, .r] x s := rfl
theorem exec_sid (x : BankNo) (s : State) : exec (.sid x) s = setAndContinue [.i, .d] x s := rfl
theorem exec_acj (x : BankNo) (s : State) : exec (.acj x) s = setAndJump [.d, .i, .r] x s := rfl
theorem exec_sbu (x : BankNo) (s : State) : exec (.sbu x) s = setAndContinue [.b] x s := rfl

/-! ### The step's wrapper -/

theorem andThen_next {o : Result} {f : State → State} {t : State} (h : andThen o f = .next t) :
    ∃ u, o = .next u ∧ t = f u := by
  cases o with
  | next u => exact ⟨u, rfl, (Host.Outcome.next.inj h).symm⟩
  | fault e => cases h
  | refused e => cases h

theorem andThen_fault {o : Result} {f : State → State} {e : Fault} (h : andThen o f = .fault e) : o = .fault e := by
  cases o with
  | next u => cases h
  | fault e' => exact congrArg _ (Host.Outcome.fault.inj h)
  | refused e' => cases h

theorem andThen_refused {o : Result} {f : State → State} {e : Refusal} (h : andThen o f = .refused e) :
    o = .refused e := by
  cases o with
  | next u => cases h
  | fault e' => cases h
  | refused e' => exact congrArg _ (Host.Outcome.refused.inj h)

end Sys2Proof.Machine
end

