-- ==== Sys2Proof/Laws/PerInstr.lean ====
section
/-! SUPPORT. Statements made for every instruction, one lemma per constructor of `Instr`. -/

namespace Sys2Proof.Laws.WordCount

/-- An instruction is encoded in two words if its first word is one of R83's two, and in one word otherwise. -/
def Statement (i : Instr) : Prop :=
  ∃ w rest, encode i = w :: rest ∧ (i.wf = true → rest.length = if isTwoWord w then 1 else 0)

/-- An `E` other than 00 keeps the groups 21 and 22 apart from the two-word forms (R90). -/
theorem oneWord_of_ne_zero : ∀ e : Field, e ≠ 0 →
    isTwoWord (joinFE 0o21 e) = false ∧ isTwoWord (joinFE 0o22 e) = false := by decide

theorem oneWord_of_field : ∀ f : Field, f ≠ 0o21 → f ≠ 0o22 → ∀ e : Field, isTwoWord (joinFE f e) = false := by
  intro f h1 h2 e
  have hw : ∀ w : Word, isTwoWord w = true → w.extractLsb' 6 6 = 0o21#6 ∨ w.extractLsb' 6 6 = 0o22#6 := by
    intro w hw
    simp only [isTwoWord, Bool.or_eq_true, beq_iff_eq] at hw
    rcases hw with rfl | rfl
    · exact .inl rfl
    · exact .inr rfl
  by_contra hc
  rw [Bool.not_eq_false] at hc
  have hf : (joinFE f e).extractLsb' 6 6 = f := by
    apply BitVec.eq_of_toNat_eq
    simp only [joinFE, BitVec.extractLsb'_toNat, BitVec.toNat_append]
    have := e.isLt
    have := f.isLt
    rw [Nat.shiftRight_or_distrib, Nat.shiftLeft_shiftRight, Nat.shiftRight_eq_div_pow,
      Nat.div_eq_of_lt (by omega), Nat.or_zero, Nat.mod_eq_of_lt (by omega)]
  rcases hw _ hc with h | h
  · exact h1 (hf.symm.trans h)
  · exact h2 (hf.symm.trans h)

theorem oneWord_of_bank : ∀ (s : BitVec 3) (x : BankNo),
    isTwoWord (joinFSX 0o00 s x) = false ∧ isTwoWord (joinFSX 0o01 s x) = false := by decide

/-- The shape shared by the one-word instructions with an `E` field. -/
theorem oneWord {i : Instr} {f e : Field} (hi : encode i = [joinFE f e]) (h1 : f ≠ 0o21) (h2 : f ≠ 0o22) :
    Statement i :=
  ⟨_, _, hi, fun _ => by rw [oneWord_of_field f h1 h2 e]; rfl⟩

theorem ldn (e : Field) : Statement (.ldn e) := oneWord rfl (by decide) (by decide)
theorem lcn (e : Field) : Statement (.lcn e) := oneWord rfl (by decide) (by decide)
theorem ldd (e : Field) : Statement (.ldd e) := oneWord rfl (by decide) (by decide)
theorem ldi (e : Field) : Statement (.ldi e) :=
  ⟨_, _, rfl, fun h => by rw [(oneWord_of_ne_zero e (by simpa [Instr.wf] using h)).1]; rfl⟩
theorem ldm (g : Word) : Statement (.ldm g) := ⟨_, _, rfl, fun _ => rfl⟩
theorem ldf (e : Field) : Statement (.ldf e) :=
  ⟨_, _, rfl, fun h => by rw [(oneWord_of_ne_zero e (by simpa [Instr.wf] using h)).2]; rfl⟩
theorem ldc (g : Word) : Statement (.ldc g) := ⟨_, _, rfl, fun _ => rfl⟩
theorem ldb (e : Field) : Statement (.ldb e) := oneWord rfl (by decide) (by decide)
theorem zjf (e : Field) : Statement (.zjf e) := oneWord rfl (by decide) (by decide)
theorem nzf (e : Field) : Statement (.nzf e) := oneWord rfl (by decide) (by decide)
theorem pjf (e : Field) : Statement (.pjf e) := oneWord rfl (by decide) (by decide)
theorem njf (e : Field) : Statement (.njf e) := oneWord rfl (by decide) (by decide)
theorem zjb (e : Field) : Statement (.zjb e) := oneWord rfl (by decide) (by decide)
theorem nzb (e : Field) : Statement (.nzb e) := oneWord rfl (by decide) (by decide)
theorem pjb (e : Field) : Statement (.pjb e) := oneWord rfl (by decide) (by decide)
theorem njb (e : Field) : Statement (.njb e) := oneWord rfl (by decide) (by decide)
theorem jpi (e : Field) : Statement (.jpi e) := oneWord rfl (by decide) (by decide)
theorem jfi (e : Field) : Statement (.jfi e) := oneWord rfl (by decide) (by decide)
theorem nop (x : BankNo) : Statement (.nop x) := ⟨_, _, rfl, fun _ => by rw [(oneWord_of_bank 0 x).1]; rfl⟩
theorem hlt (e : Field) : Statement (.hlt e) := oneWord rfl (by decide) (by decide)
theorem cil : Statement .cil := oneWord rfl (by decide) (by decide)
theorem srj (x : BankNo) : Statement (.srj x) := ⟨_, _, rfl, fun _ => by rw [(oneWord_of_bank 1 x).1]; rfl⟩
theorem sic (x : BankNo) : Statement (.sic x) := ⟨_, _, rfl, fun _ => by rw [(oneWord_of_bank 2 x).1]; rfl⟩
theorem irj (x : BankNo) : Statement (.irj x) := ⟨_, _, rfl, fun _ => by rw [(oneWord_of_bank 3 x).1]; rfl⟩
theorem sdc (x : BankNo) : Statement (.sdc x) := ⟨_, _, rfl, fun _ => by rw [(oneWord_of_bank 4 x).1]; rfl⟩
theorem drj (x : BankNo) : Statement (.drj x) := ⟨_, _, rfl, fun _ => by rw [(oneWord_of_bank 5 x).1]; rfl⟩
theorem sid (x : BankNo) : Statement (.sid x) := ⟨_, _, rfl, fun _ => by rw [(oneWord_of_bank 6 x).1]; rfl⟩
theorem acj (x : BankNo) : Statement (.acj x) := ⟨_, _, rfl, fun _ => by rw [(oneWord_of_bank 7 x).1]; rfl⟩
theorem sbu (x : BankNo) : Statement (.sbu x) := ⟨_, _, rfl, fun _ => by rw [(oneWord_of_bank 4 x).2]; rfl⟩

end Sys2Proof.Laws.WordCount
end

