-- ==== Sys2Proof/Laws/Step.lean ====
section
/-! SUPPORT. What one step can do: fetch and decode at P, and the two kinds of step (spec/40_cycle.md R110, R111;
spec/60_exceptions.md R243). -/

namespace Sys2Proof.Machine

/-- `ExecuteAtP` where the Relative bank exists (R111, R113): the decoded instruction, or the reserved word. -/
theorem executeAtP_of_exists {s : State} (h : s.bankExists .r = true) :
    executeAtP s = match s.instrAt s.p with
      | some i => exec i s
      | none => execReserved (s.roleCell .r s.p) s := by
  simp only [executeAtP, readThen_of_exists h]
  cases hw : isTwoWord (s.roleCell .r s.p) with
  | true => rfl
  | false =>
    exact congrArg (fun o : Option Instr => match o with
      | some i => exec i s
      | none => execReserved (s.roleCell .r s.p) s) (decodeFirst_second hw 0 (s.roleCell .r (s.p + 1)))

/-- Where the Relative bank does not exist the fetch faults (R236). -/
theorem executeAtP_of_missing {s : State} (h : s.bankExists .r = false) :
    executeAtP s = .fault (.addressFault .r s.p.toNat) := by
  simp only [executeAtP, readThen_of_missing h]

/-- Everything a step can be: an interrupt entry, or the instruction at P and the lock advance. -/
theorem step_cases (s : State) :
    (∃ l, s.lock = .free ∧ select s.config.priority s.pend = some l ∧
      step s = andThen (executeAtP (enterInterrupt l s)) finishEntry) ∨
    ((s.lock ≠ .free ∨ s.pend = []) ∧ step s = andThen (executeAtP s) (advanceUnlock s.lock)) := by
  cases h : s.enteredLevel with
  | some l =>
    obtain ⟨hl, hs⟩ := enteredLevel_eq_some.1 h
    exact .inl ⟨l, hl, hs, by simp only [step, cycle, h, interruptEntry]⟩
  | none => exact .inr ⟨enteredLevel_eq_none.1 h, by simp only [step, cycle, h, normalStep]⟩

theorem step_of_no_entry {s : State} (h : s.lock ≠ .free ∨ s.pend = []) :
    step s = andThen (executeAtP s) (advanceUnlock s.lock) := by
  simp only [step, cycle, enteredLevel_eq_none.2 h, normalStep]

theorem step_of_entry {s : State} {l : Nat} (h : s.lock = .free) (hs : select s.config.priority s.pend = some l) :
    step s = andThen (executeAtP (enterInterrupt l s)) finishEntry := by
  simp only [step, cycle, enteredLevel_eq_some.2 ⟨h, hs⟩, interruptEntry]

theorem fetchAddr_of_no_entry {s : State} (h : s.lock ≠ .free ∨ s.pend = []) : s.fetchAddr = s.p := by
  simp only [State.fetchAddr, enteredLevel_eq_none.2 h]

theorem fetchAddr_of_entry {s : State} {l : Nat} (h : s.lock = .free) (hs : select s.config.priority s.pend = some l) :
    s.fetchAddr = vectorSlot s.config l := by
  simp only [State.fetchAddr, enteredLevel_eq_some.2 ⟨h, hs⟩]

/-- Entry leaves every cell, select and parameter as it was; its P is the slot. -/
@[simp] theorem enterInterrupt_instrAt (l : Nat) (s : State) (addr : Word) :
    (enterInterrupt l s).instrAt addr = s.instrAt addr := rfl

@[simp] theorem enterInterrupt_bankExists (l : Nat) (s : State) (role : Role) :
    (enterInterrupt l s).bankExists role = s.bankExists role := rfl

@[simp] theorem enterInterrupt_p (l : Nat) (s : State) : (enterInterrupt l s).p = vectorSlot s.config l := rfl

@[simp] theorem enterInterrupt_pend (l : Nat) (s : State) : (enterInterrupt l s).pend = removeLevel l s.pend := rfl

end Sys2Proof.Machine
end

