-- ==== Sys2Proof/Tests/Slice0.lean ====
section
/-! SUPPORT. Tests: ill-formed terms the check refuses, words written out from the encodings of spec/30_encoding.md,
vectors of spec/95_test_vectors.md (each names its vector), and for every obligation with hypotheses a state and
operands that meet them. -/

namespace Sys2Proof.Tests

open Sys2Proof.Machine

/-! ### WellFormed refuses -/

theorem test_ldi_zero_ill_formed : (Instr.ldi 0).wf = false := by decide
theorem test_ldf_zero_ill_formed : (Instr.ldf 0).wf = false := by decide
theorem test_ldb_zero_ill_formed : (Instr.ldb 0).wf = false := by decide
theorem test_jpi_zero_ill_formed : (Instr.jpi 0).wf = false := by decide
theorem test_jfi_zero_ill_formed : (Instr.jfi 0).wf = false := by decide
theorem test_nop_zero_ill_formed : (Instr.nop 0).wf = false := by decide
theorem test_hlt_other_ill_formed : (Instr.hlt 0o01).wf = false := by decide

/-! ### Decoding: for every constructor a word written bit by bit from its encoding (R80, R81, R95) -/

theorem test_decode_ldn : decode [0b000100_101010#12] = .ok (.ldn 0o52, []) := by decide
theorem test_decode_lcn : decode [0b000101_101010#12] = .ok (.lcn 0o52, []) := by decide
theorem test_decode_ldd : decode [0b010000_000000#12] = .ok (.ldd 0o00, []) := by decide
theorem test_decode_ldi : decode [0b010001_000001#12] = .ok (.ldi 0o01, []) := by decide
theorem test_decode_ldm : decode [0b010001_000000#12, 0b100000000001#12] = .ok (.ldm 0o4001, []) := by decide
theorem test_decode_ldf : decode [0b010010_111111#12] = .ok (.ldf 0o77, []) := by decide
theorem test_decode_ldc : decode [0b010010_000000#12, 0b111000000000#12] = .ok (.ldc 0o7000, []) := by decide
theorem test_decode_ldb : decode [0b010011_100000#12] = .ok (.ldb 0o40, []) := by decide
theorem test_decode_zjf : decode [0b110000_000110#12] = .ok (.zjf 0o06, []) := by decide
theorem test_decode_nzf : decode [0b110001_000110#12] = .ok (.nzf 0o06, []) := by decide
theorem test_decode_pjf : decode [0b110010_000110#12] = .ok (.pjf 0o06, []) := by decide
theorem test_decode_njf : decode [0b110011_000110#12] = .ok (.njf 0o06, []) := by decide
theorem test_decode_zjb : decode [0b110100_000110#12] = .ok (.zjb 0o06, []) := by decide
theorem test_decode_nzb : decode [0b110101_000110#12] = .ok (.nzb 0o06, []) := by decide
theorem test_decode_pjb : decode [0b110110_000110#12] = .ok (.pjb 0o06, []) := by decide
theorem test_decode_njb : decode [0b110111_000110#12] = .ok (.njb 0o06, []) := by decide
theorem test_decode_jpi : decode [0b111000_001000#12] = .ok (.jpi 0o10, []) := by decide
theorem test_decode_jfi : decode [0b111001_000001#12] = .ok (.jfi 0o01, []) := by decide
theorem test_decode_nop : decode [0b000000_000_101#12] = .ok (.nop 5, []) := by decide
theorem test_decode_hlt : decode [0b111111_000000#12] = .ok (.hlt 0o00, []) := by decide
theorem test_decode_cil : decode [0b000001_010000#12] = .ok (.cil, []) := by decide
theorem test_decode_srj : decode [0b000000_001_011#12] = .ok (.srj 3, []) := by decide
theorem test_decode_sic : decode [0b000000_010_011#12] = .ok (.sic 3, []) := by decide
theorem test_decode_irj : decode [0b000000_011_011#12] = .ok (.irj 3, []) := by decide
theorem test_decode_sdc : decode [0b000000_100_011#12] = .ok (.sdc 3, []) := by decide
theorem test_decode_drj : decode [0b000000_101_011#12] = .ok (.drj 3, []) := by decide
theorem test_decode_sid : decode [0b000000_110_011#12] = .ok (.sid 3, []) := by decide
theorem test_decode_acj : decode [0b000000_111_011#12] = .ok (.acj 3, []) := by decide
theorem test_decode_sbu : decode [0b000001_100_011#12] = .ok (.sbu 3, []) := by decide
theorem test_decode_reserved : decode [0b000001_101_000#12] = .error (.reserved 0o0150) := by decide
theorem test_decode_missing_second : decode [0o2100] = .error (.missingSecondWord 0o2100) := by decide

/-- The second word's bits count on from bit 12 in the table's numbering. -/
theorem test_table_word_second : decodeTableWord 24 (0o1234 * 4096 + 0o2100) = some (.ldm 0o1234) := by decide

/-! ### Small states -/

/-- The default start state of the vectors of spec/95_test_vectors.md. -/
def start : State := { State.reset with p := 0o100, run := true }

/-- The state with cells written, each given by its bank, its address and its word. -/
def withCells (cells : List (BankNo × Word × Word)) (s : State) : State :=
  cells.foldl (fun t c => t.setMem (t.mem.insert (cellNumber c.1 c.2.1) c.2.2)) s

/-- The next state, if the step answers one. -/
def nextOf : Result → Option State
  | .next t => some t
  | .fault _ => none
  | .refused _ => none

/-- The fault, if the step answers one. -/
def faultOf : Result → Option Fault
  | .next _ => none
  | .fault f => some f
  | .refused _ => none

/-! ### Vectors of single steps (spec/95_test_vectors.md part 2) -/

/-- VL2: LDN 77 (maximum). -/
theorem test_ldn_77_maximum :
    let s := withCells [(0, 0o0100, 0o0477)]
      { start with a := 0o7777 }
    nextOf (step s) = some { s with a := 0o0077, p := 0o0101 } := by decide

/-- VL22: LDN in UNLOCK_PENDING: lock advances. -/
theorem test_ldn_in_unlock_pending_lock_advances :
    let s := withCells [(0, 0o0100, 0o0405)]
      { start with lock := .unlockPending }
    nextOf (step s) = some { s with a := 0o0005, p := 0o0101, lock := .free } := by decide

/-- VL5: LCN 00 (gives 7777). -/
theorem test_lcn_00_gives_7777 :
    let s := withCells [(0, 0o0100, 0o0500)]
      start
    nextOf (step s) = some { s with a := 0o7777, p := 0o0101 } := by decide

/-- VL6: LCN 77. -/
theorem test_lcn_77 :
    let s := withCells [(0, 0o0100, 0o0577)]
      start
    nextOf (step s) = some { s with a := 0o7700, p := 0o0101 } := by decide

/-- VL7: LDD 40 reads bank d=2, not bank 0. -/
theorem test_ldd_40_reads_bank_d_2_not_bank_0 :
    let s := withCells [(0, 0o0100, 0o2040), (2, 0o0040, 0o1234), (0, 0o0040, 0o7070)]
      { start with bsel := ⟨0, 2, 0, 0⟩ }
    nextOf (step s) = some { s with a := 0o1234, p := 0o0101 } := by decide

/-- VL20: LDD with d=5, NUM_BANKS=4. -/
theorem test_ldd_with_d_5_num_banks_4 :
    let s := withCells [(0, 0o0100, 0o2040)]
      { start with a := 0o0077, bsel := ⟨0, 5, 0, 0⟩, config := { Config.default with numBanks := 4 } }
    faultOf (step s) = some (.addressFault .d 0o0040) := by decide

/-- VL9: LDI 05: pointer via d=1, operand via i=3. -/
theorem test_ldi_05_pointer_via_d_1_operand_via_i_3 :
    let s := withCells [(0, 0o0100, 0o2105), (1, 0o0005, 0o0300), (3, 0o0300, 0o0707), (1, 0o0300, 0o1111)]
      { start with bsel := ⟨0, 1, 3, 0⟩ }
    (nextOf (step s)).map (fun t => (t.a, t.p)) = some (0o0707, 0o0101) := by decide

/-- VL21: LDI with i=6, NUM_BANKS=4: pointer read succeeds, operand read faults. -/
theorem test_ldi_operand_bank_missing :
    let s := withCells [(0, 0o0100, 0o2103), (0, 0o0003, 0o0007)]
      { start with a := 0o0077, bsel := ⟨0, 0, 6, 0⟩, config := { Config.default with numBanks := 4 } }
    faultOf (step s) = some (.addressFault .i 0o0007) := by decide

/-- VL10: LDM: G via r, operand via i=2; P skips G. -/
theorem test_ldm_g_via_r_operand_via_i_2_p_skips_g :
    let s := withCells [(0, 0o0300, 0o2100), (0, 0o0301, 0o4000), (2, 0o4000, 0o0012)]
      { start with p := 0o0300, bsel := ⟨0, 0, 2, 0⟩ }
    nextOf (step s) = some { s with a := 0o0012, p := 0o0302 } := by decide

/-- VL11: LDM at ia=7777: G at 0000, P wraps to 0001. -/
theorem test_ldm_at_ia_7777_g_at_0000_p_wraps_to_0001 :
    let s := withCells [(0, 0o7777, 0o2100), (0, 0o0000, 0o0005), (0, 0o0005, 0o0066)]
      { start with p := 0o7777 }
    nextOf (step s) = some { s with a := 0o0066, p := 0o0001 } := by decide

/-- VL13: LDF 10 at ia=7770: address wraps to 0000. -/
theorem test_ldf_10_at_ia_7770_address_wraps_to_0000 :
    let s := withCells [(0, 0o7770, 0o2210), (0, 0o0000, 0o0321)]
      { start with p := 0o7770 }
    nextOf (step s) = some { s with a := 0o0321, p := 0o7771 } := by decide

/-- VL14: LDF 01 with r=3: operand from bank 3. -/
theorem test_ldf_01_with_r_3_operand_from_bank_3 :
    let s := withCells [(3, 0o0100, 0o2201), (3, 0o0101, 0o6543), (0, 0o0101, 0o0001)]
      { start with bsel := ⟨0, 0, 0, 3⟩ }
    nextOf (step s) = some { s with a := 0o6543, p := 0o0101 } := by decide

/-- VL15: LDC 4000. -/
theorem test_ldc_4000 :
    let s := withCells [(0, 0o0100, 0o2200), (0, 0o0101, 0o4000)]
      start
    nextOf (step s) = some { s with a := 0o4000, p := 0o0102 } := by decide

/-- VL16: LDC at ia=7777: G at 0000, P wraps to 0001. -/
theorem test_ldc_at_ia_7777_g_at_0000_p_wraps_to_0001 :
    let s := withCells [(0, 0o7777, 0o2200), (0, 0o0000, 0o7777)]
      { start with p := 0o7777 }
    nextOf (step s) = some { s with a := 0o7777, p := 0o0001 } := by decide

/-- VL18: LDB 05 at ia=0002: address wraps to 7775. -/
theorem test_ldb_05_at_ia_0002_address_wraps_to_7775 :
    let s := withCells [(0, 0o0002, 0o2305), (0, 0o7775, 0o0444)]
      { start with p := 0o0002 }
    nextOf (step s) = some { s with a := 0o0444, p := 0o0003 } := by decide

/-- VL19: 2300 is reserved. -/
theorem test_2300_is_reserved :
    let s := withCells [(0, 0o0100, 0o2300)]
      { start with a := 0o0055 }
    faultOf (step s) = some (.illegalInstruction 0o0100 0o2300) := by decide

/-- VJ5: ZJF 05, A=7777. -/
theorem test_zjf_05_a_7777 :
    let s := withCells [(0, 0o0100, 0o6005)]
      { start with a := 0o7777 }
    nextOf (step s) = some { s with p := 0o0101 } := by decide

/-- VJC1: ZJF 00 with A=0: jumps to itself. -/
theorem test_zjf_00_with_a_0_jumps_to_itself :
    let s := withCells [(0, 0o0100, 0o6000)]
      start
    nextOf (step s) = some s := by decide

/-- VJ10: NZF 05, A=7777. -/
theorem test_nzf_05_a_7777 :
    let s := withCells [(0, 0o0100, 0o6105)]
      { start with a := 0o7777 }
    nextOf (step s) = some { s with p := 0o0105 } := by decide

/-- VJC3: NZF 77 at ia=7750: target wraps to 0047. -/
theorem test_nzf_77_at_ia_7750_target_wraps_to_0047 :
    let s := withCells [(0, 0o7750, 0o6177)]
      { start with a := 0o0001, p := 0o7750 }
    nextOf (step s) = some { s with p := 0o0047 } := by decide

/-- VJ13: PJF 05, A=3777. -/
theorem test_pjf_05_a_3777 :
    let s := withCells [(0, 0o0100, 0o6205)]
      { start with a := 0o3777 }
    nextOf (step s) = some { s with p := 0o0105 } := by decide

/-- VJC5: PJF 02 at ia=7777 not taken: P wraps to 0000. -/
theorem test_pjf_02_at_ia_7777_not_taken_p_wraps_to_0000 :
    let s := withCells [(0, 0o7777, 0o6202)]
      { start with a := 0o4000, p := 0o7777 }
    nextOf (step s) = some { s with p := 0o0000 } := by decide

/-- VJ16: NJF 05, A=0000. -/
theorem test_njf_05_a_0000 :
    let s := withCells [(0, 0o0100, 0o6305)]
      start
    nextOf (step s) = some { s with p := 0o0101 } := by decide

/-- VJ19: NJF 05, A=4000. -/
theorem test_njf_05_a_4000 :
    let s := withCells [(0, 0o0100, 0o6305)]
      { start with a := 0o4000 }
    nextOf (step s) = some { s with p := 0o0105 } := by decide

/-- VJ21: ZJB 05, A=0000. -/
theorem test_zjb_05_a_0000 :
    let s := withCells [(0, 0o0100, 0o6405)]
      start
    nextOf (step s) = some { s with p := 0o0073 } := by decide

/-- VJC4: ZJB 77 at ia=0010: target wraps to 7711. -/
theorem test_zjb_77_at_ia_0010_target_wraps_to_7711 :
    let s := withCells [(0, 0o0010, 0o6477)]
      { start with p := 0o0010 }
    nextOf (step s) = some { s with p := 0o7711 } := by decide

/-- VJ26: NZB 05, A=0000. -/
theorem test_nzb_05_a_0000 :
    let s := withCells [(0, 0o0100, 0o6505)]
      start
    nextOf (step s) = some { s with p := 0o0101 } := by decide

/-- VJ30: NZB 05, A=7777. -/
theorem test_nzb_05_a_7777 :
    let s := withCells [(0, 0o0100, 0o6505)]
      { start with a := 0o7777 }
    nextOf (step s) = some { s with p := 0o0073 } := by decide

/-- VJ31: PJB 05, A=0000. -/
theorem test_pjb_05_a_0000 :
    let s := withCells [(0, 0o0100, 0o6605)]
      start
    nextOf (step s) = some { s with p := 0o0073 } := by decide

/-- VJ34: PJB 05, A=4000. -/
theorem test_pjb_05_a_4000 :
    let s := withCells [(0, 0o0100, 0o6605)]
      { start with a := 0o4000 }
    nextOf (step s) = some { s with p := 0o0101 } := by decide

/-- VJ37: NJB 05, A=0001. -/
theorem test_njb_05_a_0001 :
    let s := withCells [(0, 0o0100, 0o6705)]
      { start with a := 0o0001 }
    nextOf (step s) = some { s with p := 0o0101 } := by decide

/-- VJC6: NJB 01 with A=7777 in UNLOCK_PENDING. -/
theorem test_njb_01_with_a_7777_in_unlock_pending :
    let s := withCells [(0, 0o0100, 0o6701)]
      { start with a := 0o7777, lock := .unlockPending }
    nextOf (step s) = some { s with p := 0o0077, lock := .free } := by decide

/-- VU2: JPI 10 with d=2: target from bank 2; continues in r bank. -/
theorem test_jpi_target_from_direct_bank :
    let s := withCells [(0, 0o0100, 0o7010), (2, 0o0010, 0o0777), (0, 0o0010, 0o0456)]
      { start with bsel := ⟨0, 2, 0, 0⟩ }
    nextOf (step s) = some { s with p := 0o0777 } := by decide

/-- VU9: JPI with d=7, NUM_BANKS=4. -/
theorem test_jpi_with_d_7_num_banks_4 :
    let s := withCells [(0, 0o0100, 0o7010)]
      { start with bsel := ⟨0, 7, 0, 0⟩, config := { Config.default with numBanks := 4 } }
    faultOf (step s) = some (.addressFault .d 0o0010) := by decide

/-- VU5: JFI 01 at ia=7777: pointer at 0000. -/
theorem test_jfi_01_at_ia_7777_pointer_at_0000 :
    let s := withCells [(0, 0o7777, 0o7101), (0, 0o0000, 0o0300)]
      { start with p := 0o7777 }
    nextOf (step s) = some { s with p := 0o0300 } := by decide

/-- VU6: JFI 01 with r=3: pointer from bank 3. -/
theorem test_jfi_01_with_r_3_pointer_from_bank_3 :
    let s := withCells [(3, 0o0100, 0o7101), (3, 0o0101, 0o2000), (0, 0o0101, 0o0001)]
      { start with bsel := ⟨0, 0, 0, 3⟩ }
    nextOf (step s) = some { s with p := 0o2000 } := by decide

/-- VU7: 7000 is reserved. -/
theorem test_7000_is_reserved :
    let s := withCells [(0, 0o0100, 0o7000)]
      start
    faultOf (step s) = some (.illegalInstruction 0o0100 0o7000) := by decide

/-- VC2: NOP 0007. -/
theorem test_nop_0007 :
    let s := withCells [(0, 0o0100, 0o0007)]
      start
    nextOf (step s) = some { s with p := 0o0101 } := by decide

/-- VC3: NOP in UNLOCK_PENDING. -/
theorem test_nop_in_unlock_pending :
    let s := withCells [(0, 0o0100, 0o0001)]
      { start with lock := .unlockPending }
    nextOf (step s) = some { s with p := 0o0101, lock := .free } := by decide

/-- VC5: CIL in LOCKED. -/
theorem test_cil_in_locked :
    let s := withCells [(0, 0o0100, 0o0120)]
      start
    nextOf (step s) = some { s with p := 0o0101, lock := .unlockPending } := by decide

/-- VC6: CIL in UNLOCK_PENDING: not re-armed, ends FREE. -/
theorem test_cil_in_unlock_pending_not_re_armed_ends_free :
    let s := withCells [(0, 0o0100, 0o0120)]
      { start with lock := .unlockPending }
    nextOf (step s) = some { s with p := 0o0101, lock := .free } := by decide

/-- VC9: HLT 7777. -/
theorem test_hlt_7777 :
    let s := withCells [(0, 0o0100, 0o7777)]
      start
    nextOf (step s) = some { s with p := 0o0101, run := false } := by decide

/-- VC11: HLT in UNLOCK_PENDING. -/
theorem test_hlt_in_unlock_pending :
    let s := withCells [(0, 0o0100, 0o7700)]
      { start with lock := .unlockPending }
    nextOf (step s) = some { s with p := 0o0101, lock := .free, run := false } := by decide

/-- VC13: 0000 is reserved. -/
theorem test_0000_is_reserved :
    let s := withCells [(0, 0o0100, 0o0000)]
      { start with a := 0o0001 }
    faultOf (step s) = some (.illegalInstruction 0o0100 0o0000) := by decide

/-- VC17: 0000 in UNLOCK_PENDING: fault, lock not advanced. -/
theorem test_0000_in_unlock_pending_fault_lock_not_advanced :
    let s := withCells [(0, 0o0100, 0o0000)]
      { start with lock := .unlockPending }
    faultOf (step s) = some (.illegalInstruction 0o0100 0o0000) := by decide

/-- VB1: SRJ 3. -/
theorem test_srj_3 :
    let s := withCells [(0, 0o0102, 0o0013)]
      { start with a := 0o0200, p := 0o0102 }
    nextOf (step s) = some { s with p := 0o0200, bsel := ⟨0, 0, 0, 3⟩ } := by decide

/-- VB11: SRJ 5 with NUM_BANKS=4: no fault now (next fetch faults). -/
theorem test_srj_to_missing_bank :
    let s := withCells [(0, 0o0100, 0o0015)]
      { start with a := 0o0300, config := { Config.default with numBanks := 4 } }
    nextOf (step s) = some { s with p := 0o0300, bsel := ⟨0, 0, 0, 5⟩ } := by decide

/-- VB2: SIC 5. -/
theorem test_sic_5 :
    let s := withCells [(0, 0o0100, 0o0025)]
      start
    nextOf (step s) = some { s with p := 0o0101, bsel := ⟨0, 0, 5, 0⟩ } := by decide

/-- VB3: IRJ 2. -/
theorem test_irj_2 :
    let s := withCells [(0, 0o0100, 0o0032)]
      { start with a := 0o1000 }
    nextOf (step s) = some { s with p := 0o1000, bsel := ⟨0, 0, 2, 2⟩ } := by decide

/-- VB4: SDC 1. -/
theorem test_sdc_1 :
    let s := withCells [(0, 0o0100, 0o0041)]
      start
    nextOf (step s) = some { s with p := 0o0101, bsel := ⟨0, 1, 0, 0⟩ } := by decide

/-- VB10: SDC 7 with NUM_BANKS=4: no fault at the setter. -/
theorem test_sdc_7_with_num_banks_4_no_fault_at_the_setter :
    let s := withCells [(0, 0o0100, 0o0047)]
      { start with config := { Config.default with numBanks := 4 } }
    nextOf (step s) = some { s with p := 0o0101, bsel := ⟨0, 7, 0, 0⟩ } := by decide

/-- VB5: DRJ 7. -/
theorem test_drj_7 :
    let s := withCells [(0, 0o0100, 0o0057)]
      { start with a := 0o0100 }
    nextOf (step s) = some { s with bsel := ⟨0, 7, 0, 7⟩ } := by decide

/-- VB6: SID 4. -/
theorem test_sid_4 :
    let s := withCells [(0, 0o0100, 0o0064)]
      start
    nextOf (step s) = some { s with p := 0o0101, bsel := ⟨0, 4, 4, 0⟩ } := by decide

/-- VB7: ACJ 1 (b unchanged). -/
theorem test_acj_1_b_unchanged :
    let s := withCells [(0, 0o0100, 0o0071)]
      { start with bsel := ⟨6, 0, 0, 0⟩ }
    nextOf (step s) = some { s with p := 0o0000, bsel := ⟨6, 1, 1, 1⟩ } := by decide

/-- VB8: SBU 6. -/
theorem test_sbu_6 :
    let s := withCells [(0, 0o0100, 0o0146)]
      start
    nextOf (step s) = some { s with p := 0o0101, bsel := ⟨6, 0, 0, 0⟩ } := by decide

/-- VB12: fetch with r=5, NUM_BANKS=4. -/
theorem test_fetch_with_r_5_num_banks_4 :
    let s := withCells []
      { start with p := 0o0300, bsel := ⟨0, 0, 0, 5⟩, config := { Config.default with numBanks := 4 } }
    faultOf (step s) = some (.addressFault .r 0o0300) := by decide

/-- VE1: slot holds JFI 1. -/
theorem test_slot_holds_jfi_1 :
    let s := withCells [(0, 0o0010, 0o7101), (0, 0o0011, 0o0200)]
      { start with p := 0o0500, lock := .free, pend := [0o10] }
    nextOf (step s) = some { s with p := 0o0200, lock := .locked, pend := [] } := by decide

/-- VE3: slot holds CIL: ends LOCKED. -/
theorem test_slot_holds_cil_ends_locked :
    let s := withCells [(0, 0o0010, 0o0120)]
      { start with p := 0o0500, lock := .free, pend := [0o10] }
    nextOf (step s) = some { s with p := 0o0011, lock := .locked, pend := [] } := by decide

/-- VE6: slot holds 0000: entry undone. -/
theorem test_slot_holds_0000_entry_undone :
    let s := withCells [(0, 0o0010, 0o0000)]
      { start with p := 0o0500, lock := .free, pend := [0o10] }
    faultOf (step s) = some (.illegalInstruction 0o0010 0o0000) := by decide

/-- VE8: slot holds ZJF 04, A=0: taken relative to the slot. -/
theorem test_slot_holds_zjf_04_a_0_taken_relative_to_the_slot :
    let s := withCells [(0, 0o0010, 0o6004)]
      { start with p := 0o0500, lock := .free, pend := [0o10] }
    nextOf (step s) = some { s with p := 0o0014, lock := .locked, pend := [] } := by decide

/-- VE10: levels 10 and 40 pending, default priority. -/
theorem test_levels_10_and_40_pending_default_priority :
    let s := withCells [(0, 0o0010, 0o0001)]
      { start with p := 0o0500, lock := .free, pend := [0o10, 0o40] }
    nextOf (step s) = some { s with p := 0o0011, lock := .locked, pend := [0o40] } := by decide

/-- VE11: levels 10 and 40 pending, PRIORITY=max. -/
theorem test_levels_10_and_40_pending_priority_max :
    let s := withCells [(0, 0o0040, 0o0001)]
      { start with p := 0o0500, lock := .free, pend := [0o10, 0o40], config := { Config.default with priority := .byTable [([0o10, 0o40], 0o40)] } }
    nextOf (step s) = some { s with p := 0o0041, lock := .locked, pend := [0o10] } := by decide

/-- VE13: level 20 with r=3: slot read from bank 3. -/
theorem test_level_20_with_r_3_slot_read_from_bank_3 :
    let s := withCells [(3, 0o0020, 0o7101), (3, 0o0021, 0o0400), (0, 0o0020, 0o0001)]
      { start with p := 0o0500, lock := .free, pend := [0o20], bsel := ⟨0, 0, 0, 3⟩ }
    nextOf (step s) = some { s with p := 0o0400, lock := .locked, pend := [] } := by decide

/-- VE14: pending, lock UNLOCK_PENDING: normal step, then FREE. -/
theorem test_pending_unlock_pending_normal_step :
    let s := withCells [(0, 0o0500, 0o0001)]
      { start with p := 0o0500, lock := .unlockPending, pend := [0o10] }
    nextOf (step s) = some { s with p := 0o0501, lock := .free } := by decide

/-- VE16: FREE and pending while the word at P is reserved: entry wins, no fault. -/
theorem test_entry_wins_over_reserved_word_at_p :
    let s := withCells [(0, 0o0010, 0o0001), (0, 0o0500, 0o0000)]
      { start with p := 0o0500, lock := .free, pend := [0o10] }
    nextOf (step s) = some { s with p := 0o0011, lock := .locked, pend := [] } := by decide

/-- VE17: entry with RUN false (STEP while stopped): RUN stays false. -/
theorem test_entry_while_stopped :
    let s := withCells [(0, 0o0010, 0o0001)]
      { start with p := 0o0500, lock := .free, pend := [0o10], run := false }
    nextOf (step s) = some { s with p := 0o0011, lock := .locked, pend := [] } := by decide

/-! ### Host operations (spec/95_test_vectors.md, VH) -/

/-- What a host operation returns, if it does not fault. -/
def replyOf : HostResult → Option Reply
  | .next (v, _) => some v
  | .fault _ => none
  | .refused _ => none

/-- The fault of a host operation, if it faults. -/
def hostFaultOf : HostResult → Option Fault
  | .next _ => none
  | .fault f => some f
  | .refused _ => none

/-- VH2: the value is truncated to 12 bits. -/
theorem test_write_truncates :
    replyOf (perform (.read .r 0o7777) (session [.write .r 0o7777 4101] .reset).state) = some (.word 0o0005) := by decide

/-- VH4: an address of 4096 or more. -/
theorem test_host_address_faults :
    hostFaultOf (perform (.read .d 4096) .reset) = some (.addressFault .d 4096) ∧
    hostFaultOf (perform (.write .i 5000 1) .reset) = some (.addressFault .i 5000) ∧
    session [.read .d 4096, .write .i 5000 1] .reset =
      ⟨[.fault (.addressFault .d 4096), .fault (.addressFault .i 5000)], .reset⟩ := by decide

/-- VH5: after SET_BANK(d, 1) and a write through d, the other roles read what they read before. -/
theorem test_bank_independence :
    let s := (session [.write .b 0o50 0o0011, .write .i 0o50 0o0011, .setBank .d 1, .write .d 0o50 0o7070] .reset).state
    [Role.b, .i, .r, .d].map (fun role => replyOf (perform (.read role 0o50) s)) =
      [some (.word 0o0011), some (.word 0o0011), some (.word 0o0011), some (.word 0o7070)] := by decide

/-- VH6: 11 mod 8. -/
theorem test_set_bank_modulo_eight :
    replyOf (perform (.getBank .i) (session [.setBank .i 11] .reset).state) = some (.bank 3) := by decide

/-- VH7: two roles with equal selects alias. -/
theorem test_roles_alias :
    replyOf (perform (.read .r 0o10) (session [.setBank .d 2, .write .d 0o10 1, .setBank .r 2] .reset).state) =
      some (.word 1) := by decide

/-- VH8: decimal 9 is no level. -/
theorem test_invalid_level :
    hostFaultOf (perform (.requestInterrupt 9) .reset) = some (.invalidInterruptLevel 9) ∧
    (session [.requestInterrupt 9] .reset).state.pend = [] := by decide

/-- VH9: Run with RUN false performs no step. -/
theorem test_run_while_stopped : runLoop [[], []] .reset = ⟨[], .returned .reset⟩ := by decide

/-- VH10: the second request is absorbed. -/
theorem test_request_twice :
    replyOf (perform .getPending (session [.requestInterrupt 0o10, .requestInterrupt 0o10] .reset).state) =
      some (.levels [0o10]) := by decide

/-- VH11: a request is accepted while LOCKED and stopped, and changes nothing else. -/
theorem test_request_while_locked :
    (session [.requestInterrupt 0o20] .reset).state = { State.reset with pend := [0o20] } := by decide

/-- VH12: RESET keeps memory. -/
theorem test_reset_keeps_memory :
    let s : State := withCells [(2, 0o0100, 0o5555)] { State.reset with
      a := 0o1234, p := 0o0456, bsel := ⟨1, 2, 3, 4⟩, lock := .free, pend := [0o10, 0o30], run := true }
    (session [.reset] s).state = withCells [(2, 0o0100, 0o5555)] State.reset := by decide

/-- VH13 and VH14: SET_PC and SET_A truncate. -/
theorem test_set_pc_and_set_a :
    (session [.setPc 0o10005] .reset).state.p = 0o0005 ∧ (session [.setA (0o7777 + 2)] .reset).state.a = 0o0001 := by decide

/-- VH15: START sets RUN only. -/
theorem test_start : (session [.start] .reset).state = { State.reset with run := true } := by decide

/-- VH16: SET_BANK to a missing bank succeeds, and the read through it faults. -/
theorem test_missing_bank :
    hostFaultOf (perform (.read .b 0) (session [.setBank .b 6]
      (State.launch { Config.default with numBanks := 4 })).state) = some (.addressFault .b 0) := by decide

/-- VH17: STOP at the boundary after the third step ends Run there. -/
theorem test_stop_during_run :
    let s := withCells [(0, 0o0100, 0o6000)] start
    runLoop [[], [], [], [.stop], []] s = ⟨[[], [], [], [.reply .done]], .returned { s with run := false }⟩ := by decide

/-- R214: SET_A is not allowed while Run is looping. -/
theorem test_set_a_not_allowed_during_run :
    let s := withCells [(0, 0o0100, 0o6000)] start
    runLoop [[], [.getA, .setA 1]] s = ⟨[[], [.reply (.word 0)]], .notAllowed (.setA 1) s⟩ := by decide

/-- R215, R231: a request outside LEVELS at a boundary of Run receives InvalidInterruptLevel, and the run goes on. -/
theorem test_invalid_level_during_run :
    let s := withCells [(0, 0o0100, 0o6000)] start
    runLoop [[.requestInterrupt 9, .requestInterrupt 0o10], [.stop]] s =
      ⟨[[.fault (.invalidInterruptLevel 9), .reply .done], [.reply .done]],
        .returned { s with pend := [0o10], run := false }⟩ := by decide

/-- R231, R234: a STEP of a session that faults is reported, with code 2 (P5 of spec/95_test_vectors.md). -/
theorem test_faulting_step_in_session :
    let s := withCells [(0, 0o0100, 0o0401), (0, 0o0101, 0o0000)] start
    session [.step, .step] s =
      ⟨[.reply .done, .fault (.illegalInstruction 0o0101 0)], { s with a := 1, p := 0o0101 }⟩ ∧
    (Fault.illegalInstruction 0o0101 0).code = 2 := by decide

/-! ### Witnesses: for each obligation with hypotheses, states and operands that meet them -/

/-- A property of the next state an outcome answers, from its evaluation. -/
theorem next_with {o : Result} {P : State → Prop} [DecidablePred P] (h : (nextOf o).any (fun t => P t) = true) :
    ∃ t, o = .next t ∧ P t := by
  cases o with
  | next t => exact ⟨t, rfl, by simpa [nextOf] using h⟩
  | fault f => simp [nextOf] at h
  | refused e => simp [nextOf] at h

/-- A fault an outcome answers, from its evaluation. -/
theorem fault_of {o : Result} {f : Fault} (h : faultOf o = some f) : o = .fault f := by
  cases o <;> simp_all [faultOf]

/-- A property of the reply and the state a host operation answers, from its evaluation. -/
theorem reply_with {o : HostResult} {P : Reply → State → Prop} [∀ v t, Decidable (P v t)]
    (h : (match o with
      | .next (v, t) => decide (P v t)
      | .fault _ => false
      | .refused _ => false) = true) : ∃ v t, o = .next (v, t) ∧ P v t := by
  cases o with
  | next vt => exact ⟨vt.1, vt.2, rfl, by simpa using h⟩
  | fault f => simp at h
  | refused e => simp at h

/-- Four banks, and the selects d, i and r: 3 names the last bank that exists, 4 the first that does not. -/
def four (d i r : BankNo) : State :=
  { start with bsel := ⟨0, d, i, r⟩, config := { Config.default with numBanks := 4 } }

/-- Four banks, all selects 3, one word at 0100 of bank 3. -/
def fourWith (w : Word) : State := withCells [(3, 0o0100, w)] (four 3 3 3)

/-- The lock FREE and the default levels 10 and 40 pending, one word in the slot of level 10. -/
def entering (w : Word) : State :=
  withCells [(0, 0o0010, w)] { start with p := 0o0500, lock := .free, pend := [0o10, 0o40] }

theorem witness_DecodeOfEncode :
    [Instr.ldi 0o01, .ldm 0o7777, .nop 7, .hlt 0o77, .sbu 7].all Instr.wf = true := by decide

theorem witness_EncodeOfDecode :
    decode [0o2100, 0o3456, 0o0001] = .ok (.ldm 0o3456, [0o0001]) ∧ decode [0o7777] = .ok (.hlt 0o77, []) := by decide

theorem witness_ReservedWordsListedAndFault :
    ((fourWith 0o7776).config.illegalPolicy = .fault ∧
      (fourWith 0o7776).bsel.r.toNat < (fourWith 0o7776).config.numBanks ∧
      (fourWith 0o7776).instrAt (fourWith 0o7776).fetchAddr = none) ∧
    ((entering 0o0000).config.illegalPolicy = .fault ∧
      (entering 0o0000).bsel.r.toNat < (entering 0o0000).config.numBanks ∧
      (entering 0o0000).instrAt (entering 0o0000).fetchAddr = none) := by decide

theorem witness_ReservedWordUnderOtherPolicies :
    ∀ policy : IllegalPolicy,
      let s := { fourWith 0o0100 with
        lock := .unlockPending, pend := [0o10], config := { (fourWith 0).config with illegalPolicy := policy } }
      (s.lock ≠ .free ∨ s.pend = []) ∧ s.bsel.r.toNat < s.config.numBanks ∧ s.instrAt s.p = none := by
  intro policy
  cases policy <;> decide

theorem witness_LoadDirectResult :
    (four 3 0 0).bsel.d.toNat < (four 3 0 0).config.numBanks ∧
    (four 4 0 0).config.numBanks ≤ (four 4 0 0).bsel.d.toNat := by decide

theorem witness_LoadIndirectResult :
    (0o01 : Field) ≠ 0 ∧
    ((four 3 3 0).bsel.d.toNat < (four 3 3 0).config.numBanks ∧
      (four 3 3 0).bsel.i.toNat < (four 3 3 0).config.numBanks) ∧
    (four 4 4 0).config.numBanks ≤ (four 4 4 0).bsel.d.toNat ∧
    ((four 3 4 0).bsel.d.toNat < (four 3 4 0).config.numBanks ∧
      (four 3 4 0).config.numBanks ≤ (four 3 4 0).bsel.i.toNat) := by decide

theorem witness_LoadMemoryResult :
    (four 0 3 0).bsel.i.toNat < (four 0 3 0).config.numBanks ∧
    (four 0 4 0).config.numBanks ≤ (four 0 4 0).bsel.i.toNat ∧
    ((fourWith 0o2100).bsel.r.toNat < (fourWith 0o2100).config.numBanks ∧
      (fourWith 0o2100).cell (fourWith 0o2100).bsel.r (fourWith 0o2100).p = 0o2100) := by decide

theorem witness_LoadConstantResult :
    (fourWith 0o2200).bsel.r.toNat < (fourWith 0o2200).config.numBanks ∧
    (fourWith 0o2200).cell (fourWith 0o2200).bsel.r (fourWith 0o2200).p = 0o2200 := by decide

theorem witness_LoadRelativeResults :
    (0o01 : Field) ≠ 0 ∧ (four 0 0 3).bsel.r.toNat < (four 0 0 3).config.numBanks := by decide

theorem witness_LoadsForgetA :
    (Instr.ldn 0o77).isLoad = true ∧ ∃ t, exec (.ldn 0o77) start = .next t ∧ t.a = 0o77 :=
  ⟨by decide, next_with (by decide)⟩

theorem witness_JumpIndirectResult :
    (0o01 : Field) ≠ 0 ∧ (four 3 0 0).bsel.d.toNat < (four 3 0 0).config.numBanks ∧
    (four 4 0 0).config.numBanks ≤ (four 4 0 0).bsel.d.toNat := by decide

theorem witness_JumpForwardIndirectResult :
    (0o01 : Field) ≠ 0 ∧ (four 0 0 3).bsel.r.toNat < (four 0 0 3).config.numBanks := by decide

theorem witness_NopResult :
    let s := { fourWith 0o0007 with lock := .unlockPending, pend := [0o10] }
    (7 : BankNo) ≠ 0 ∧ (s.lock ≠ .free ∨ s.pend = []) ∧ s.bsel.r.toNat < s.config.numBanks ∧
    s.cell s.bsel.r s.p = (7 : BankNo).setWidth 12 := by decide

theorem witness_HaltResult :
    (∀ w ∈ [(0o7700 : Word), 0o7777],
      let s := { fourWith w with lock := .free }
      (s.lock ≠ .free ∨ s.pend = []) ∧ s.bsel.r.toNat < s.config.numBanks ∧
      (s.cell s.bsel.r s.p = 0o7700 ∨ s.cell s.bsel.r s.p = 0o7777)) ∧
    ∃ t, exec (.hlt 0o77) start = .next t ∧ t.run = false :=
  ⟨by decide, next_with (by decide)⟩

theorem witness_ClearInterruptLockResult :
    ((fourWith 0o0120).lock ≠ .free ∨ (fourWith 0o0120).pend = []) ∧
    (fourWith 0o0120).bsel.r.toNat < (fourWith 0o0120).config.numBanks ∧
    (fourWith 0o0120).cell (fourWith 0o0120).bsel.r (fourWith 0o0120).p = 0o0120 ∧
    ((entering 0o0120).lock = .free ∧ (entering 0o0120).pend ≠ [] ∧
      (entering 0o0120).bsel.r.toNat < (entering 0o0120).config.numBanks ∧
      (entering 0o0120).cell (entering 0o0120).bsel.r (entering 0o0120).fetchAddr = 0o0120) := by decide

theorem witness_RelativeSelectChangesOnlyWithJumpToA :
    ∃ t, step (fourWith 0o0014) = .next t ∧ t.bsel.r ≠ (fourWith 0o0014).bsel.r := next_with (by decide)

/-- The clauses of the frame: an instruction that is no load, no HLT and no CIL, and writes the Indirect select only. -/
theorem witness_InstructionFrame :
    ∃ t, exec (.sic 5) start = .next t ∧ (Instr.sic 5).isLoad = false ∧ Role.d ∉ writtenSelects (.sic 5) ∧
      Instr.sic 5 ≠ .cil ∧ ∀ e, Instr.sic 5 ≠ .hlt e :=
  let ⟨t, h, _⟩ := next_with (o := exec (.sic 5) start) (P := fun _ => True) (by decide)
  ⟨t, h, by decide, by decide, by decide, by simp⟩

theorem witness_StepWritesNoMemory :
    ∃ t, step (fourWith 0o0401) = .next t ∧ t.mem ≠ [] := next_with (by decide)

theorem witness_StepExecutesTheDecodedInstruction :
    let s := withCells [(3, 0o0100, 0o2100), (3, 0o0101, 0o0007)] { four 3 4 3 with lock := .unlockPending }
    (s.lock ≠ .free ∨ s.pend = []) ∧ s.bsel.r.toNat < s.config.numBanks ∧
    decode [s.cell s.bsel.r s.p, s.cell s.bsel.r (s.p + 1)] = .ok (.ldm 0o0007, []) := by decide

theorem witness_StepEntersTheSelectedInterrupt :
    let s := withCells [(0, 0o0011, 0o0200)] (entering 0o7101)
    s.lock = .free ∧ select s.config.priority s.pend = some 0o10 ∧ s.bsel.r.toNat < s.config.numBanks ∧
    decode [s.cell s.bsel.r (s.config.vectorBase + BitVec.ofNat 12 0o10),
      s.cell s.bsel.r (s.config.vectorBase + BitVec.ofNat 12 0o10 + 1)] = .ok (.jfi 1, [0o0200]) := by decide

theorem witness_ArbiterSelectsAMember :
    [0o10, 0o40] ≠ ([] : List Nat) ∧
    ([([0o10, 0o40], 0o40)] : List (List Nat × Nat)).lookup [0o10, 0o40] = some 0o40 ∧
    0o40 ∈ [0o10, 0o40] := by decide

theorem witness_EntryRemovesOneLevelAndLocks :
    (entering 0o0001).lock = .free ∧ (entering 0o0001).pend ≠ [] ∧
    ∃ t, step (entering 0o0001) = .next t ∧ t.pend = [0o40] :=
  ⟨by decide, by decide, next_with (by decide)⟩

/-- A step from each lock value, with a level pending and without, and a host operation that changes the lock. -/
theorem witness_LockTransitionsAreComplete :
    (∃ t, step (fourWith 0o0120) = .next t ∧ t.lock = .unlockPending) ∧
    (∃ t, step (fourWith 0o0001) = .next t ∧ t.lock = .locked) ∧
    (∃ t, step { fourWith 0o0001 with lock := .unlockPending } = .next t ∧ t.lock = .free) ∧
    (∃ t, step { fourWith 0o0001 with lock := .free } = .next t ∧ t.lock = .free) ∧
    (∃ t, step (entering 0o0001) = .next t ∧ t.lock = .locked) ∧
    (∃ v t, perform .reset (entering 0) = .next (v, t) ∧ t.lock ≠ (entering 0).lock) :=
  ⟨next_with (by decide), next_with (by decide), next_with (by decide), next_with (by decide), next_with (by decide),
    reply_with (by decide)⟩

/-- CIL, then NOP, then a step with a level pending, or with none. -/
theorem witness_UnlockIsDeferredByOneStep :
    ∀ pend ∈ [[], [0o10]],
      let s := withCells [(0, 0o0010, 1), (0, 0o0100, 0o0120), (0, 0o0101, 1), (0, 0o0102, 1)] { start with pend := pend }
      let t := { s with p := 0o0101, lock := .unlockPending }
      let u := { s with p := 0o0102, lock := .free }
      s.lock = .locked ∧ s.instrAt s.p = some .cil ∧ nextOf (step s) = some t ∧ nextOf (step t) = some u ∧
      (nextOf (step u)).isSome = true := by decide

theorem witness_PendingSetWriters :
    (∃ v t, perform (.requestInterrupt 0o20) (entering 1) = .next (v, t) ∧ t.pend ≠ (entering 1).pend) ∧
    (∃ v t, perform .step (entering 1) = .next (v, t) ∧ t.pend ≠ (entering 1).pend) ∧
    (∃ v t, perform .reset (entering 1) = .next (v, t) ∧ t.pend ≠ (entering 1).pend) :=
  ⟨reply_with (by decide), reply_with (by decide), reply_with (by decide)⟩

theorem witness_RunFlagWriters :
    let halting := { fourWith 0o0100 with config := { (fourWith 0).config with illegalPolicy := .halt } }
    (∃ v t, perform .start .reset = .next (v, t) ∧ t.run ≠ State.reset.run) ∧
    (∃ v t, perform .stop start = .next (v, t) ∧ t.run ≠ start.run) ∧
    (∃ v t, perform .reset start = .next (v, t) ∧ t.run ≠ start.run) ∧
    (∃ v t, perform .step (entering 0o7700) = .next (v, t) ∧ t.run ≠ (entering 0o7700).run) ∧
    (∃ v t, perform .step halting = .next (v, t) ∧ t.run ≠ halting.run) :=
  ⟨reply_with (by decide), reply_with (by decide), reply_with (by decide), reply_with (by decide),
    reply_with (by decide)⟩

theorem witness_StepDoesNotReadRun :
    step (fourWith 0o2300) = .fault (.illegalInstruction 0o0100 0o2300) ∧
    (∃ t, step (fourWith 0o0401) = .next t ∧ t.run = true) ∧
    (let s := { fourWith 0o7777 with lock := .unlockPending, run := false }
     (s.lock ≠ .free ∨ s.pend = []) ∧ s.bsel.r.toNat < s.config.numBanks ∧ s.instrAt s.p = some (.hlt 0o77)) :=
  ⟨fault_of (by decide), next_with (by decide), by decide⟩

theorem witness_StepDoesNotReadBufferSelect :
    step (fourWith 0o2300) = .fault (.illegalInstruction 0o0100 0o2300) ∧
    ∃ t, step (fourWith 0o0146) = .next t ∧ t.bsel.b = 6 :=
  ⟨fault_of (by decide), next_with (by decide)⟩

theorem witness_FirstFaultIsReported :
    (four 4 4 4).config.numBanks ≤ (four 4 4 4).bsel.r.toNat ∧
    (fourWith 0o0000).bsel.r.toNat < (fourWith 0o0000).config.numBanks ∧
    ((fourWith 0o0000).instrAt (fourWith 0o0000).fetchAddr = none ∧
      (fourWith 0o0000).config.illegalPolicy = .fault) ∧
    (∀ wi ∈ [((0o2001 : Word), Instr.ldd 1), (0o2101, .ldi 1), (0o7001, .jpi 1)],
      let s := withCells [(3, 0o0100, wi.1)] (four 4 4 3)
      s.bsel.r.toNat < s.config.numBanks ∧ s.config.numBanks ≤ s.bsel.d.toNat ∧
      s.instrAt s.fetchAddr = some wi.2) ∧
    (let s := withCells [(3, 0o0100, 0o2101)] (four 3 4 3)
     s.bsel.r.toNat < s.config.numBanks ∧ s.bsel.d.toNat < s.config.numBanks ∧
     s.config.numBanks ≤ s.bsel.i.toNat ∧ s.instrAt s.fetchAddr = some (.ldi 1)) ∧
    (let s := withCells [(3, 0o0100, 0o2100), (3, 0o0101, 0o7777)] (four 4 4 3)
     s.bsel.r.toNat < s.config.numBanks ∧ s.config.numBanks ≤ s.bsel.i.toNat ∧
     s.instrAt s.fetchAddr = some (.ldm 0o7777)) := by decide

theorem witness_StepFaultsAreTheSpecs :
    step (four 0 0 4) = .fault (.addressFault .r 0o0100) ∧
    step (withCells [(0, 0o0100, 0o2077)] (four 4 0 0)) = .fault (.addressFault .d 0o0077) ∧
    step (withCells [(0, 0o0100, 0o2100), (0, 0o0101, 0o0001)] (four 0 4 0)) = .fault (.addressFault .i 1) ∧
    step (entering 0) = .fault (.illegalInstruction 0o0010 0) :=
  ⟨fault_of (by decide), fault_of (by decide), fault_of (by decide), fault_of (by decide)⟩

theorem witness_AddressFaultExactlyWhenNotAdmitted :
    (((four 3 0 0).bsel.get .d).toNat < (four 3 0 0).config.numBanks ∧ 4095 < 4096) ∧
    ¬(((four 3 0 0).bsel.get .d).toNat < (four 3 0 0).config.numBanks ∧ 4096 < 4096) ∧
    ¬(((four 4 0 0).bsel.get .d).toNat < (four 4 0 0).config.numBanks ∧ 4095 < 4096) ∧
    State.reset.config.numBanks = 8 := by decide

theorem witness_StepCompletesWithEightBanks :
    (entering 0o0001).config.numBanks = 8 ∧ (entering 0o0001).instrAt (entering 0o0001).fetchAddr ≠ none ∧
    (let s := { entering 0o0000 with config := { Config.default with illegalPolicy := .nop } }
     s.config.numBanks = 8 ∧ s.instrAt s.fetchAddr = none ∧ s.config.illegalPolicy ≠ .fault) := by decide

theorem witness_ConstructionMeetsInv :
    Config.default.Wf ∧
    Config.Wf { Config.default with numBanks := 1, levels := [] } ∧
    Config.Wf { Config.default with levels := [0, 4095], priority := .byTable [([0, 4095], 4095)] } := by decide

theorem entering_inv : State.Inv (entering 0o0401) :=
  { config := by decide, mem := by decide, within := by decide, pend := by decide }

theorem witness_StepKeepsInv :
    State.Inv (entering 0o0401) ∧ ∃ t, step (entering 0o0401) = .next t ∧ t.a = 1 ∧ t.pend = [0o40] :=
  ⟨entering_inv, next_with (by decide)⟩

theorem witness_HostOperationKeepsInv :
    State.Inv (entering 0o0401) ∧
    (∃ v t, perform (.write .b 0o7777 1) (entering 0o0401) = .next (v, t) ∧ t.mem ≠ (entering 0o0401).mem) ∧
    (∃ v t, perform (.requestInterrupt 0o20) (entering 0o0401) = .next (v, t) ∧ t.pend = [0o10, 0o20, 0o40]) :=
  ⟨entering_inv, reply_with (by decide), reply_with (by decide)⟩

theorem witness_RunKeepsInv :
    State.Inv (entering 0o0401) ∧
    (runLoop [[.requestInterrupt 0o20], [.stop]] (entering 0o0401)).ending.state.pend = [0o20, 0o40] :=
  ⟨entering_inv, by decide⟩

theorem witness_WriteThenReadReturnsTheValue :
    ((four 3 0 0).bsel.get .d).toNat < (four 3 0 0).config.numBanks ∧ 4095 < 4096 := by decide

theorem witness_WriteChangesOneCell :
    (4095 < 4096 ∧ ((four 3 0 0).bsel.get .d).toNat < (four 3 0 0).config.numBanks) ∧
    ¬(4096 < 4096 ∧ ((four 3 0 0).bsel.get .d).toNat < (four 3 0 0).config.numBanks) ∧
    ¬(0 < 4096 ∧ ((four 4 0 0).bsel.get .d).toNat < (four 4 0 0).config.numBanks) := by decide

theorem witness_RolesAliasOrAreIndependent :
    ((four 3 3 0).bsel.get .d = (four 3 3 0).bsel.get .i ∧
      ∃ v t, perform (.write .d 0o7777 0o10001) (four 3 3 0) = .next (v, t) ∧ v = .done) ∧
    Role.d ≠ .i ∧
    ((four 3 3 0).bsel.get .d ≠ (four 3 3 0).bsel.get .r ∧
      ∃ v t, perform (.write .d 0 1) (four 3 3 0) = .next (v, t) ∧ v = .done) :=
  ⟨⟨by decide, reply_with (by decide)⟩, by decide, by decide, reply_with (by decide)⟩

theorem witness_SetBankStoresModuloEight : Role.b ≠ .d := by decide

theorem witness_RequestAddsAValidLevel :
    9 ∉ State.reset.config.levels ∧ 0o40 ∈ State.reset.config.levels ∧
    (State.Inv (entering 0o0401) ∧ 0o40 ∈ (entering 0o0401).pend) :=
  ⟨by decide, by decide, entering_inv, by decide⟩

theorem witness_RunIsRepeatedStep :
    State.reset.run = false ∧
    (let s := withCells [(0, 0o0100, 0o0001), (0, 0o0101, 0o7700)] start
     (runLoop (List.replicate 1 []) s).ending = .running { s with p := 0o0101 } ∧
     (runLoop (List.replicate 3 []) s).ending = .returned { s with p := 0o0102, run := false }) ∧
    (let s := withCells [(0, 0o0100, 0o0401), (0, 0o0101, 0o0000)] start
     (runLoop (List.replicate 3 []) s).ending =
       .faulted (.illegalInstruction 0o0101 0) { s with a := 1, p := 0o0101 }) := by decide

theorem witness_FaultEndsRunWithRunTrue :
    (runLoop [[.requestInterrupt 0o20]] (fourWith 0o2300)).ending =
      .faulted (.illegalInstruction 0o0100 0o2300) { fourWith 0o2300 with pend := [0o20] } := by decide

theorem witness_RunWritesNoMemory :
    (runLoop [[.write .b 0 1]] (fourWith 0o0001)).ending = .notAllowed (.write .b 0 1) (fourWith 0o0001) := by decide

theorem witness_StopEndsRunBeforeTheNextFetch :
    (∀ op ∈ [HostOp.requestInterrupt 0o20, .getPc], op.allowedDuringRun = true) ∧ start.run = true := by decide

theorem witness_HostStepIsOneStep :
    (∃ t, step (fourWith 0o0401) = .next t ∧ t.a = 1) ∧
    step (fourWith 0o2300) = .fault (.illegalInstruction 0o0100 0o2300) :=
  ⟨next_with (by decide), fault_of (by decide)⟩

theorem witness_EveryFaultIsReported :
    start.run = true ∧ (∀ op ∈ [HostOp.getA] ++ [.stop], op.allowedDuringRun = true) ∧
    9 ∉ start.config.levels := by decide

end Sys2Proof.Tests
end

section
/-! ## Frames

What an instruction, ExecuteAtP, a step and a host operation leave unchanged: the frames that the statements of
spec/10_state.md rest on. -/

namespace Sys2Proof.Machine

/-! ### One instruction -/

/-- What an instruction may not write: A is written by loads only (R21), the selects by the setters of R188(e), RUN by
HLT (R173), LOCK by CIL (R31); PEND, the parameters and memory by none (R34, R37). -/
structure InstrFrame (i : Instr) (s t : State) : Prop where
  a      : i.isLoad = false → t.a = s.a
  bsel   : ∀ role, role ∉ writtenSelects i → t.bsel.get role = s.bsel.get role
  run    : (∀ e, i ≠ .hlt e) → t.run = s.run
  lock   : i ≠ .cil → t.lock = s.lock
  pend   : t.pend = s.pend
  config : t.config = s.config
  mem    : t.mem = s.mem

variable {i : Instr} {s t : State}

/-- A write of A and P is within the frame of a load. -/
theorem InstrFrame.of_load (hi : i.isLoad = true) (v n : Word) : InstrFrame i s ((s.setA v).advance n) where
  a h := by simp [hi] at h
  bsel _ _ := rfl
  run _ := rfl
  lock _ := rfl
  pend := rfl
  config := rfl
  mem := rfl

/-- A write of P is within the frame of every instruction. -/
theorem InstrFrame.of_setP (i : Instr) (s : State) (v : Word) : InstrFrame i s (s.setP v) where
  a _ := rfl
  bsel _ _ := rfl
  run _ := rfl
  lock _ := rfl
  pend := rfl
  config := rfl
  mem := rfl

/-- A write of the instruction's own selects, and of P, is within its frame. -/
theorem InstrFrame.of_setSelects (i : Instr) (s : State) (x : BankNo) (v : Word) :
    InstrFrame i s ((setSelects (writtenSelects i) x s).setP v) where
  a _ := by rw [setSelects_frame]; rfl
  bsel role h := by simp [setSelects_get, h]
  run _ := by rw [setSelects_frame]; rfl
  lock _ := by rw [setSelects_frame]; rfl
  pend := by rw [setSelects_frame]; rfl
  config := by rw [setSelects_frame]; rfl
  mem := by rw [setSelects_frame]; rfl

theorem InstrFrame.of_hlt (e : Field) (s : State) : InstrFrame (.hlt e) s ((s.setRun false).advance 1) where
  a _ := rfl
  bsel _ _ := rfl
  run h := absurd rfl (h e)
  lock _ := rfl
  pend := rfl
  config := rfl
  mem := rfl

theorem InstrFrame.of_cil (s : State) : InstrFrame .cil s ((beginUnlock s).advance 1) := by
  rw [beginUnlock_eq]
  exact { a := fun _ => rfl, bsel := fun _ _ => rfl, run := fun _ => rfl, lock := fun h => absurd rfl h
          pend := rfl, config := rfl, mem := rfl }

theorem InstrFrame.of_setAndContinue {x : BankNo} (h : setAndContinue (writtenSelects i) x s = .next t) :
    InstrFrame i s t := by
  cases h
  exact .of_setSelects i s x _

theorem InstrFrame.of_setAndJump {x : BankNo} (h : setAndJump (writtenSelects i) x s = .next t) :
    InstrFrame i s t := by
  cases h
  exact .of_setSelects i s x _

theorem InstrFrame.of_jumpIf {c : Condition} {target : Word} (h : jumpIf c target s = .next t) : InstrFrame i s t := by
  rw [jumpIf_eq] at h
  cases h
  exact .of_setP i s _

theorem InstrFrame.of_jumpVia {mode : Mode} (he : exec i s = jumpVia mode s) (h : exec i s = .next t) :
    InstrFrame i s t := by
  obtain ⟨v, rfl⟩ := jumpVia_next (he ▸ h)
  exact .of_setP i s v

theorem InstrFrame.of_loadA {mode : Mode} (hi : i.isLoad = true) (he : exec i s = loadA mode s)
    (h : exec i s = .next t) : InstrFrame i s t := by
  obtain ⟨v, rfl⟩ := loadA_next (he ▸ h)
  exact .of_load hi v _

/-- Every instruction that completes keeps to its frame. -/
theorem exec_frame (h : exec i s = .next t) : InstrFrame i s t := by
  cases i with
  | ldn e => exact .of_loadA rfl (exec_ldn e s) h
  | lcn e => cases h; exact .of_load rfl _ 1
  | ldd e => exact .of_loadA rfl (exec_ldd e s) h
  | ldi e => exact .of_loadA rfl (exec_ldi e s) h
  | ldm g => exact .of_loadA rfl (exec_ldm g s) h
  | ldf e => exact .of_loadA rfl (exec_ldf e s) h
  | ldc g => exact .of_loadA rfl (exec_ldc g s) h
  | ldb e => exact .of_loadA rfl (exec_ldb e s) h
  | zjf e | nzf e | pjf e | njf e | zjb e | nzb e | pjb e | njb e => exact .of_jumpIf h
  | jpi e => exact .of_jumpVia (exec_jpi e s) h
  | jfi e => exact .of_jumpVia (exec_jfi e s) h
  | nop x => cases h; exact .of_setP _ s _
  | hlt e => cases h; exact .of_hlt e s
  | cil => cases h; exact .of_cil s
  | sic x | sdc x | sid x | sbu x => exact .of_setAndContinue h
  | srj x | irj x | drj x | acj x => exact .of_setAndJump h

/-! ### ExecuteAtP -/

/-- Where ExecuteAtP completes it has executed one instruction: the fetched one or, for a reserved word, NOP or HLT as
the policy says (spec/30_encoding.md R97). -/
theorem executeAtP_next (h : executeAtP s = .next t) :
    ∃ i, exec i s = .next t ∧
      (s.instrAt s.p = some i ∨
        (s.instrAt s.p = none ∧
          ((s.config.illegalPolicy = .nop ∧ i = .nop 0) ∨ (s.config.illegalPolicy = .halt ∧ i = .hlt 0)))) := by
  cases hb : s.bankExists .r with
  | false => rw [executeAtP_of_missing hb] at h; cases h
  | true =>
    rw [executeAtP_of_exists hb] at h
    cases hi : s.instrAt s.p with
    | some i => exact ⟨i, by rwa [hi] at h, .inl rfl⟩
    | none =>
      rw [hi] at h
      rcases execReserved_next h with ⟨hp, rfl⟩ | ⟨hp, rfl⟩
      · exact ⟨.nop 0, rfl, .inr ⟨rfl, .inl ⟨hp, rfl⟩⟩⟩
      · exact ⟨.hlt 0, rfl, .inr ⟨rfl, .inr ⟨hp, rfl⟩⟩⟩

theorem executeAtP_pend (h : executeAtP s = .next t) : t.pend = s.pend := by
  obtain ⟨_, hi, -⟩ := executeAtP_next h
  exact (exec_frame hi).pend

theorem executeAtP_config (h : executeAtP s = .next t) : t.config = s.config := by
  obtain ⟨_, hi, -⟩ := executeAtP_next h
  exact (exec_frame hi).config

theorem executeAtP_mem (h : executeAtP s = .next t) : t.mem = s.mem := by
  obtain ⟨_, hi, -⟩ := executeAtP_next h
  exact (exec_frame hi).mem

/-- ExecuteAtP writes the lock by CIL in LOCKED only (transition T1 of R31). -/
theorem executeAtP_lock (h : executeAtP s = .next t) :
    t.lock = if s.instrAt s.p = some .cil ∧ s.lock = .locked then .unlockPending else s.lock := by
  obtain ⟨i, hi, hw⟩ := executeAtP_next h
  by_cases hc : i = .cil
  · subst hc
    have hcil : s.instrAt s.p = some .cil := by simpa using hw
    rw [exec_cil, beginUnlock_eq] at hi
    cases hi
    simp [hcil]
  · have hncil : s.instrAt s.p ≠ some .cil := by
      rcases hw with hw | ⟨hw, -⟩ <;> simp [hw, hc]
    simp [(exec_frame hi).lock hc, hncil]

/-- ExecuteAtP writes RUN by HLT only, fetched or in the place of a reserved word, and clears it (R173). -/
theorem executeAtP_run (h : executeAtP s = .next t) (hr : t.run ≠ s.run) :
    t.run = false ∧
      ((∃ e, s.instrAt s.p = some (.hlt e)) ∨ (s.instrAt s.p = none ∧ s.config.illegalPolicy = .halt)) := by
  obtain ⟨i, hi, hw⟩ := executeAtP_next h
  have hhlt : ∃ e, i = .hlt e := by
    by_contra hne
    exact hr ((exec_frame hi).run fun e he => hne ⟨e, he⟩)
  obtain ⟨e, rfl⟩ := hhlt
  refine ⟨by cases hi; rfl, ?_⟩
  rcases hw with hw | ⟨hw, ⟨-, hnop⟩ | ⟨hp, -⟩⟩
  · exact .inl ⟨e, hw⟩
  · cases hnop
  · exact .inr ⟨hw, hp⟩

/-! ### One step -/

/-- Everything a completed step can be: an interrupt entry, which ends LOCKED, or the instruction at P and the lock
advance (R110, R115, R243). -/
theorem step_next_cases (h : step s = .next t) :
    (∃ l u, s.lock = .free ∧ select s.config.priority s.pend = some l ∧
      executeAtP (enterInterrupt l s) = .next u ∧ t = u.setLock .locked) ∨
    ((s.lock ≠ .free ∨ s.pend = []) ∧ ∃ u, executeAtP s = .next u ∧
      t = u.setLock (if s.lock = .unlockPending then .free else u.lock)) := by
  rcases step_cases s with ⟨l, hl, hs, heq⟩ | ⟨hn, heq⟩
  · obtain ⟨u, hu, rfl⟩ := andThen_next (heq ▸ h)
    exact .inl ⟨l, u, hl, hs, hu, rfl⟩
  · obtain ⟨u, hu, rfl⟩ := andThen_next (heq ▸ h)
    exact .inr ⟨hn, u, hu, advanceUnlock_eq _ u⟩

theorem step_mem (h : step s = .next t) : t.mem = s.mem := by
  rcases step_next_cases h with ⟨_, _, _, _, hu, rfl⟩ | ⟨_, _, hu, rfl⟩ <;> exact (executeAtP_mem hu :)

theorem step_config (h : step s = .next t) : t.config = s.config := by
  rcases step_next_cases h with ⟨_, _, _, _, hu, rfl⟩ | ⟨_, _, hu, rfl⟩ <;> exact (executeAtP_config hu :)

/-- A step writes PEND by interrupt entry only, which removes the selected level (R34). -/
theorem step_pend (h : step s = .next t) :
    t.pend = s.pend ∨
    (s.lock = .free ∧ ∃ l, select s.config.priority s.pend = some l ∧ t.pend = removeLevel l s.pend) := by
  rcases step_next_cases h with ⟨l, _, hl, hs, hu, rfl⟩ | ⟨_, _, hu, rfl⟩
  · exact .inr ⟨hl, l, hs, executeAtP_pend hu⟩
  · exact .inl (executeAtP_pend hu :)

/-- A step writes RUN only where it executes HLT, or a reserved word under policy `halt`, where it fetches (R173). -/
theorem step_run (h : step s = .next t) (hr : t.run ≠ s.run) :
    t.run = false ∧ ((∃ e, s.instrAt s.fetchAddr = some (.hlt e)) ∨
      (s.instrAt s.fetchAddr = none ∧ s.config.illegalPolicy = .halt)) := by
  rcases step_next_cases h with ⟨l, _, hl, hs, hu, rfl⟩ | ⟨hn, _, hu, rfl⟩
  · rw [fetchAddr_of_entry hl hs]
    exact (executeAtP_run hu hr :)
  · rw [fetchAddr_of_no_entry hn]
    exact (executeAtP_run hu hr :)

theorem step_lock_of_locked (h : step s = .next t) (hl : s.lock = .locked) :
    t.lock = if s.instrAt s.p = some .cil then .unlockPending else .locked := by
  rcases step_next_cases h with ⟨_, _, hfree, -⟩ | ⟨_, _, hu, rfl⟩
  · simp [hl] at hfree
  · simp [executeAtP_lock hu, hl]

theorem step_lock_of_unlockPending (h : step s = .next t) (hl : s.lock = .unlockPending) : t.lock = .free := by
  rcases step_next_cases h with ⟨_, _, hfree, -⟩ | ⟨_, _, _, rfl⟩
  · simp [hl] at hfree
  · simp [hl]

theorem step_lock_of_free (h : step s = .next t) (hl : s.lock = .free) :
    t.lock = if s.pend = [] then .free else .locked := by
  rcases step_next_cases h with ⟨l, _, _, hs, _, rfl⟩ | ⟨hn, _, hu, rfl⟩
  · have hne : s.pend ≠ [] := List.ne_nil_of_mem (select_mem hs)
    simp [hne]
  · have hnil : s.pend = [] := hn.resolve_left (absurd hl)
    simp [executeAtP_lock hu, hl, hnil]

/-! ### One host operation -/

/-- What a completed host operation other than STEP makes of the state (R200 to R212). -/
def HostOp.effect : HostOp → State → State
  | .write role addr v, s => s.setMem (s.mem.insert (cellNumber (s.bsel.get role) (trunc12 addr)) (trunc12 v))
  | .setBank role n, s => hostSetBank role n s
  | .setPc v, s => s.setP (trunc12 v)
  | .setA v, s => s.setA (trunc12 v)
  | .requestInterrupt l, s => s.setPend (insertLevel l s.pend)
  | .reset, s => hostReset s
  | .start, s => s.setRun true
  | .stop, s => s.setRun false
  | .read _ _, s | .getBank _, s | .getPc, s | .getA, s | .getRun, s | .getLock, s | .getPending, s | .step, s => s

/-- A completed host operation is STEP, which is a step, or has its effect. -/
theorem perform_next_cases {op : HostOp} {r : Reply} (h : perform op s = .next (r, t)) :
    (op = .step ∧ step s = .next t) ∨ (op ≠ .step ∧ t = op.effect s) := by
  cases op with
  | step => exact .inl ⟨rfl, (perform_step_next h).2⟩
  | read role addr => exact .inr ⟨nofun, perform_read_next h⟩
  | write role addr v =>
    obtain ⟨-, -, -, ht⟩ := perform_write_next h
    exact .inr ⟨nofun, ht⟩
  | requestInterrupt l => exact .inr ⟨nofun, (perform_requestInterrupt_next h).2⟩
  | setBank | getBank | setPc | getPc | setA | getA | getRun | getLock | getPending | reset | start | stop =>
    cases h
    exact .inr ⟨nofun, rfl⟩

theorem HostOp.effect_lock {op : HostOp} (h : op ≠ .reset) (s : State) : (op.effect s).lock = s.lock := by
  cases op with
  | reset => exact absurd rfl h
  | _ => rfl

theorem HostOp.effect_pend {op : HostOp} (hreq : ∀ l, op ≠ .requestInterrupt l) (h : op ≠ .reset) (s : State) :
    (op.effect s).pend = s.pend := by
  cases op with
  | requestInterrupt l => exact absurd rfl (hreq l)
  | reset => exact absurd rfl h
  | _ => rfl

theorem HostOp.effect_run {op : HostOp} (hstart : op ≠ .start) (hstop : op ≠ .stop) (h : op ≠ .reset) (s : State) :
    (op.effect s).run = s.run := by
  cases op with
  | start => exact absurd rfl hstart
  | stop => exact absurd rfl hstop
  | reset => exact absurd rfl h
  | _ => rfl

end Sys2Proof.Machine
end

section
/-! ## The invariant

The invariant between steps (spec/10_state.md R40): it holds of a new machine, and every step, host operation and
run keeps it. -/

namespace Sys2Proof.Machine

variable {s t : State}

theorem PendWf.insertLevel {pend : List Nat} {c : Config} (h : PendWf pend c) {l : Nat} (hl : l ∈ c.levels) :
    PendWf (insertLevel l pend) c := by
  obtain ⟨hrising, hlevels⟩ := h
  refine ⟨insertLevel_rising hrising l, fun l' hl' => ?_⟩
  rcases (mem_insertLevel l l' pend).1 hl' with rfl | hl'
  · exact hl
  · exact hlevels l' hl'

theorem PendWf.removeLevel {pend : List Nat} {c : Config} (h : PendWf pend c) (l : Nat) :
    PendWf (removeLevel l pend) c := by
  obtain ⟨hrising, hlevels⟩ := h
  exact ⟨removeLevel_rising hrising l, fun l' hl' => hlevels l' ((mem_removeLevel l l' pend).1 hl').1⟩

/-- The invariant is kept where the parameters and memory are, and PEND stays well formed. -/
theorem State.Inv.of_pend (h : s.Inv) (hc : t.config = s.config) (hm : t.mem = s.mem) (hp : PendWf t.pend s.config) :
    t.Inv where
  config := hc ▸ h.config
  mem := hm ▸ h.mem
  within := by rw [hc, hm]; exact h.within
  pend := hc ▸ hp

theorem State.launch_inv {c : Config} (h : c.Wf) : (State.launch c).Inv where
  config := h
  mem := .nil
  within := nofun
  pend := ⟨.nil, nofun⟩

/-- A word written to an existing bank keeps the invariant (R37). -/
theorem State.Inv.write {role : Role} {addr v : Word} (h : s.Inv) (hw : memWrite role addr v s = .ok t) :
    t.Inv := by
  have hm := memWrite_keeps_wf hw h.mem
  have hi := memWrite_keeps_within hw h.within
  rcases memWrite_cases role addr v s with ⟨_, h'⟩ | ⟨_, h'⟩ <;> rw [h'] at hw <;> cases hw
  exact ⟨h.config, hm, hi, h.pend⟩

theorem step_inv (hs : s.Inv) (h : step s = .next t) : t.Inv := by
  refine hs.of_pend (step_config h) (step_mem h) ?_
  rcases step_pend h with hp | ⟨_, l, _, hp⟩ <;> rw [hp]
  · exact hs.pend
  · exact hs.pend.removeLevel l

theorem perform_inv {op : HostOp} {r : Reply} (hs : s.Inv) (h : perform op s = .next (r, t)) : t.Inv := by
  cases op with
  | step => exact step_inv hs (perform_step_next h).2
  | read role addr => exact perform_read_next h ▸ hs
  | write role addr v =>
    obtain ⟨-, hb, -, rfl⟩ := perform_write_next h
    exact hs.write (if_pos hb)
  | requestInterrupt l =>
    obtain ⟨hl, rfl⟩ := perform_requestInterrupt_next h
    exact hs.of_pend rfl rfl (hs.pend.insertLevel hl)
  | reset => cases h; exact hs.of_pend rfl rfl ⟨.nil, nofun⟩
  | setBank | getBank | setPc | getPc | setA | getA | getRun | getLock | getPending | start | stop =>
    cases h
    exact hs.of_pend rfl rfl hs.pend

/-- An operation that faults leaves the state as it was, so the invariant is kept whatever the host is told. -/
theorem respond_inv (hs : s.Inv) (op : HostOp) : (respond op s).2.Inv := by
  unfold respond
  split
  · exact perform_inv hs ‹_›
  · exact hs
  · exact hs

theorem session_inv (ops : List HostOp) (hs : s.Inv) : (session ops s).state.Inv := by
  induction ops generalizing s with
  | nil => exact hs
  | cons op ops ih => exact ih (respond_inv hs op)

theorem runLoop_inv (schedule : List (List HostOp)) (hs : s.Inv) : (runLoop schedule s).ending.state.Inv := by
  induction schedule generalizing s with
  | nil =>
    rw [runLoop_nil]
    cases s.run <;> exact hs
  | cons ops schedule ih =>
    cases hr : s.run with
    | false => rw [runLoop_of_stopped _ hr]; exact hs
    | true =>
      cases hn : firstNotAllowed ops with
      | some op => rw [runLoop_of_notAllowed _ hr hn]; exact session_inv _ hs
      | none =>
        have hboundary := session_inv ops hs
        rw [runLoop_of_allowed _ hr (firstNotAllowed_eq_none.1 hn)]
        split
        · split
          · exact ih (step_inv hboundary ‹_›)
          · exact hboundary
          · exact hboundary
        · exact hboundary

/-- Settles O43: a step keeps the parameters and memory, and at most removes a level from PEND. -/
theorem stepKeepsInv : Obligations.StepKeepsInv := fun _ _ => step_inv

/-- Settles O44, by the kinds of operation: WRITE is admitted to existing banks only, a request adds a valid level. -/
theorem hostOperationKeepsInv : Obligations.HostOperationKeepsInv := fun _ _ _ _ => perform_inv

/-- Settles O45, by induction on the schedule. -/
theorem runKeepsInv : Obligations.RunKeepsInv := fun schedule _ => runLoop_inv schedule

/-- Settles O42: the default parameters are legal, and a new machine has nothing in memory and nothing pending. -/
theorem constructionMeetsInv : Obligations.ConstructionMeetsInv :=
  ⟨State.launch_inv (by decide), fun _ => State.launch_inv⟩

end Sys2Proof.Machine
end

section
/-! ## The writers of each part of the state

Which instructions, steps and host operations write each part of the state (spec/10_state.md R20 to R41). -/

namespace Sys2Proof.Machine

/-- Settles O25: the frame of every instruction, and a cell reads what memory and the parameters say. -/
theorem instructionFrame : Obligations.InstructionFrame := by
  intro i s t h
  obtain ⟨ha, hbsel, hrun, hlock, hpend, hconfig, hmem⟩ := exec_frame h
  exact ⟨ha, hbsel, hrun, hlock, hpend, hconfig, hmem, State.cell_congr hmem hconfig⟩

/-- Settles O26: an entry and a normal step both write memory by ExecuteAtP only, which does not. -/
theorem stepWritesNoMemory : Obligations.StepWritesNoMemory := fun _ _ h =>
  ⟨step_mem h, step_config h, State.cell_congr (step_mem h) (step_config h)⟩

/-- Settles O31: a step's transition from each value of the lock, and RESET as the only other writer. -/
theorem lockTransitionsAreComplete : Obligations.LockTransitionsAreComplete := by
  refine ⟨fun s t h => ⟨step_lock_of_locked h, step_lock_of_unlockPending h, step_lock_of_free h⟩, ?_, ?_⟩
  · intro s t op r h hlock
    rcases perform_next_cases h with ⟨rfl, -⟩ | ⟨-, rfl⟩
    · exact .inl rfl
    · by_contra hne
      exact hlock (HostOp.effect_lock (fun hreset => hne (.inr hreset)) s)
  · intro s t r h
    cases h
    rfl

/-- Settles O33: requests, interrupt entry and RESET are the writers of PEND. -/
theorem pendingSetWriters : Obligations.PendingSetWriters := by
  intro s t op r h hpend
  rcases perform_next_cases h with ⟨rfl, hstep⟩ | ⟨-, rfl⟩
  · obtain ⟨hfree, l, hs, hp⟩ := (step_pend hstep).resolve_left hpend
    exact .inr (.inl ⟨rfl, hfree, l, hs, fun l' => hp ▸ mem_removeLevel l l' s.pend⟩)
  · by_cases hreset : op = .reset
    · subst hreset
      exact .inr (.inr ⟨rfl, rfl⟩)
    · have hreq : ∃ l, op = .requestInterrupt l := by
        by_contra hne
        exact hpend (HostOp.effect_pend (fun l hl => hne ⟨l, hl⟩) hreset s)
      obtain ⟨l, rfl⟩ := hreq
      exact .inl ⟨l, rfl, fun l' => mem_insertLevel l l' s.pend⟩

/-- Settles O34: a step clears RUN by HLT only; START, STOP and RESET are the other writers. -/
theorem runFlagWriters : Obligations.RunFlagWriters := by
  intro s t op r h hrun
  rcases perform_next_cases h with ⟨rfl, hstep⟩ | ⟨-, rfl⟩
  · obtain ⟨hfalse, hhlt⟩ := step_run hstep hrun
    exact .inr ⟨hfalse, .inr (.inr ⟨rfl, hhlt⟩)⟩
  · by_cases hstart : op = .start
    · subst hstart
      exact .inl ⟨rfl, rfl⟩
    by_cases hstop : op = .stop
    · subst hstop
      exact .inr ⟨rfl, .inl rfl⟩
    by_cases hreset : op = .reset
    · subst hreset
      exact .inr ⟨rfl, .inr (.inl rfl)⟩
    exact absurd (HostOp.effect_run hstart hstop hreset s) hrun

/-- Settles O41: each value is the one R41 gives, by the definitions of `State.launch` and RESET. -/
theorem resetValues : Obligations.ResetValues :=
  ⟨fun _ => ⟨rfl, rfl, rfl, rfl, rfl, rfl, rfl⟩, rfl, fun _ => rfl⟩

end Sys2Proof.Machine
end

section
/-! ## Accesses of the host

READ and WRITE where the access is admitted and where it is not (spec/20_memory.md R51), a read after a write
(R54, R55), and what a select changes for the other roles (spec/10_state.md R28). -/

namespace Sys2Proof.Machine

variable {s t : State} {role role' : Role}

/-- An access is admitted where its bank exists and its address is within the bank (R51). -/
abbrev State.Admits (s : State) (role : Role) (addr : Nat) : Prop :=
  (s.bsel.get role).toNat < s.config.numBanks ∧ addr < bankSize

/-- An access that is not admitted has an address outside the bank, or one that fits a word and a missing bank. -/
theorem State.not_admits_cases {addr : Nat} (h : ¬s.Admits role addr) :
    ¬addr < bankSize ∨ (addr < bankSize ∧ (trunc12 addr).toNat = addr ∧ s.bankExists role = false) := by
  by_cases ha : addr < bankSize
  · have hbank : s.bankExists role = false := by
      rw [← Bool.not_eq_true, State.bankExists_iff]
      exact fun hb => h ⟨hb, ha⟩
    exact .inr ⟨ha, Nat.mod_eq_of_lt ha, hbank⟩
  · exact .inl ha

theorem perform_read_of_admits {addr : Nat} (h : s.Admits role addr) :
    perform (.read role addr) s = .next (.word (s.roleCell role (trunc12 addr)), s) := by
  obtain ⟨hb, ha⟩ := h
  simp only [perform, hostRead, ha, if_true, memRead_ok ((State.bankExists_iff s role).2 hb)]

theorem perform_read_of_not_admits {addr : Nat} (h : ¬s.Admits role addr) :
    perform (.read role addr) s = .fault (.addressFault role addr) := by
  rcases State.not_admits_cases h with ha | ⟨ha, haddr, hb⟩
  · simp only [perform, hostRead, ha, if_false]
  · simp only [perform, hostRead, ha, if_true, memRead_error hb, haddr]

theorem perform_write_of_admits {addr : Nat} (v : Nat) (h : s.Admits role addr) :
    perform (.write role addr v) s =
      .next (.done, s.setMem (s.mem.insert (cellNumber (s.bsel.get role) (trunc12 addr)) (trunc12 v))) := by
  obtain ⟨hb, ha⟩ := h
  simp only [perform, hostWrite, ha, if_true, memWrite, (State.bankExists_iff s role).2 hb]

theorem perform_write_of_not_admits {addr : Nat} (v : Nat) (h : ¬s.Admits role addr) :
    perform (.write role addr v) s = .fault (.addressFault role addr) := by
  rcases State.not_admits_cases h with ha | ⟨ha, haddr, hb⟩
  · simp only [perform, hostWrite, ha, if_false]
  · simp only [perform, hostWrite, ha, if_true, memWrite, hb, Bool.false_eq_true, if_false, haddr]

/-- A word written through one role is read, truncated, through every role with the same select (R54, R55). -/
theorem perform_read_after_write {addr v : Nat} {r : Reply} (hsel : s.bsel.get role = s.bsel.get role')
    (hw : perform (.write role addr v) s = .next (r, t)) :
    perform (.read role' addr) t = .next (.word (trunc12 v), t) := by
  obtain ⟨ha, hb, -, rfl⟩ := perform_write_next hw
  rw [perform_read_of_admits ⟨by simpa [hsel] using hb, ha⟩, State.roleCell, State.setMem_bsel, ← hsel,
    State.cell_write_same]

/-- A write through one role leaves every cell of a role with another select (R55). -/
theorem roleCell_after_write {addr v : Nat} {r : Reply} (hsel : s.bsel.get role ≠ s.bsel.get role')
    (hw : perform (.write role addr v) s = .next (r, t)) (a : Word) : t.roleCell role' a = s.roleCell role' a := by
  obtain ⟨-, -, -, rfl⟩ := perform_write_next hw
  exact State.cell_write_other s (fun h => hsel h.1.symm) _

/-! ### Another role's select -/

theorem State.bankExists_setBsel_other (h : role' ≠ role) (x : BankNo) :
    (s.setBsel role x).bankExists role' = s.bankExists role' := by
  simp [State.bankExists, h]

theorem State.roleCell_setBsel_other (h : role' ≠ role) (x : BankNo) (addr : Word) :
    (s.setBsel role x).roleCell role' addr = s.roleCell role' addr := by
  rw [State.roleCell, State.setBsel_bsel, BankSelects.get_set_other _ h]
  exact State.cell_congr rfl rfl _ addr

theorem memRead_setBsel_other (h : role' ≠ role) (x : BankNo) (addr : Word) :
    memRead role' addr (s.setBsel role x) = memRead role' addr s := by
  simp only [memRead, State.bankExists_setBsel_other h, State.roleCell_setBsel_other h]

/-- Instructions are fetched through the Relative role only (spec/40_cycle.md R111). -/
theorem State.instrAt_setBsel_other (h : role ≠ .r) (x : BankNo) (addr : Word) :
    (s.setBsel role x).instrAt addr = s.instrAt addr := by
  simp only [State.instrAt, State.roleCell_setBsel_other h.symm]

/-! ### The statements about single accesses -/

/-- Settles O46: the admitted WRITE completes, and a read with an equal select, here the same one, returns its word. -/
theorem writeThenReadReturnsTheValue : Obligations.WriteThenReadReturnsTheValue := by
  intro role addr v s hb ha
  have hw := perform_write_of_admits v (⟨hb, ha⟩ : s.Admits role addr)
  exact ⟨_, hw, perform_read_after_write rfl hw⟩

/-- Settles O49: equal selects name the same cells, other selects other cells, and a read goes through its own select
only. -/
theorem rolesAliasOrAreIndependent : Obligations.RolesAliasOrAreIndependent := by
  intro x y s
  refine ⟨fun hsel addr v t hw => perform_read_after_write hsel hw, fun hne n addr => ?_,
    fun hsel addr v t hw => roleCell_after_write hsel hw⟩
  simp only [perform, hostRead, memRead_setBsel_other hne.symm]
  by_cases ha : addr < bankSize
  · simp only [ha, if_true]
    cases memRead y (trunc12 addr) s <;> rfl
  · simp only [ha, if_false]

end Sys2Proof.Machine
end

section
/-! ## How a step can stop

The faults of an instruction, of ExecuteAtP and of a step (spec/60_exceptions.md R233, R234); none of them refuses. -/

namespace Sys2Proof.Machine

variable {i : Instr} {s : State} {f : Fault}

/-- A step's AddressFault: through d, i or r, whose select names a missing bank (spec/20_memory.md R51, R56). -/
abbrev Fault.ByMissingBank (f : Fault) (s : State) : Prop :=
  ∃ role addr, f = .addressFault role addr ∧ role ≠ .b ∧ s.bankExists role = false

/-- Every instruction reads at most one operand from memory and then completes; one that reads none goes on from a
constant here. -/
theorem exec_eq_operandThen (i : Instr) (s : State) :
    ∃ (mode : Mode) (k : Word → State), exec i s = operandThen mode s fun v => .next (k v) := by
  cases i with
  | ldd e | jpi e => exact ⟨.d e, _, rfl⟩
  | ldi e => exact ⟨.i e, _, rfl⟩
  | ldm g => exact ⟨.m g, _, rfl⟩
  | ldf e | jfi e => exact ⟨.f e, _, rfl⟩
  | ldb e => exact ⟨.b e, _, rfl⟩
  | ldn _ | lcn _ | ldc _ | zjf _ | nzf _ | pjf _ | njf _ | zjb _ | nzb _ | pjb _ | njb _ | nop _ | hlt _ | cil
  | srj _ | sic _ | irj _ | sdc _ | drj _ | sid _ | acj _ | sbu _ => exact ⟨.n 0, fun _ => _, rfl⟩

/-- An instruction faults by its operand only. -/
theorem exec_fault (h : exec i s = .fault f) : f.ByMissingBank s := by
  obtain ⟨mode, k, heq⟩ := exec_eq_operandThen i s
  rw [heq] at h
  exact operandThen_fault (fun _ _ => by nofun) h

theorem exec_ne_refused {e : Refusal} : exec i s ≠ .refused e := by
  obtain ⟨mode, k, heq⟩ := exec_eq_operandThen i s
  rw [heq]
  exact operandThen_ne_refused fun _ => nofun

/-- A reserved word faults under policy `fault` only (spec/30_encoding.md R96, R97). -/
theorem execReserved_fault {w : Word} (h : execReserved w s = .fault f) :
    s.config.illegalPolicy = .fault ∧ f = .illegalInstruction s.p w := by
  cases hp : s.config.illegalPolicy with
  | fault =>
    simp only [execReserved, hp] at h
    exact ⟨rfl, (Host.Outcome.fault.inj h).symm⟩
  | nop => simp [execReserved, hp, doNothing] at h
  | halt => simp [execReserved, hp, halt] at h

theorem execReserved_ne_refused {w : Word} {e : Refusal} : execReserved w s ≠ .refused e := by
  cases hp : s.config.illegalPolicy <;> simp [execReserved, hp, doNothing, halt]

/-- Every fault of ExecuteAtP: a missing bank, or a reserved word at P under policy `fault`. -/
theorem executeAtP_fault (h : executeAtP s = .fault f) :
    f.ByMissingBank s ∨
    (f = .illegalInstruction s.p (s.roleCell .r s.p) ∧ s.instrAt s.p = none ∧ s.config.illegalPolicy = .fault) := by
  cases hb : s.bankExists .r with
  | false =>
    rw [executeAtP_of_missing hb] at h
    exact .inl ⟨.r, _, (Host.Outcome.fault.inj h).symm, by decide, hb⟩
  | true =>
    rw [executeAtP_of_exists hb] at h
    cases hi : s.instrAt s.p with
    | some i => exact .inl (exec_fault (by rwa [hi] at h))
    | none =>
      rw [hi] at h
      obtain ⟨hp, hf⟩ := execReserved_fault h
      exact .inr ⟨hf, rfl, hp⟩

theorem executeAtP_ne_refused {e : Refusal} : executeAtP s ≠ .refused e := by
  intro h
  cases hb : s.bankExists .r with
  | false => rw [executeAtP_of_missing hb] at h; cases h
  | true =>
    rw [executeAtP_of_exists hb] at h
    cases hi : s.instrAt s.p with
    | some i => rw [hi] at h; exact exec_ne_refused h
    | none => rw [hi] at h; exact execReserved_ne_refused h

/-- Every fault of a step: a missing bank, or a reserved word where it fetches under policy `fault`. -/
theorem step_fault (h : step s = .fault f) :
    f.ByMissingBank s ∨
    (f = .illegalInstruction s.fetchAddr (s.roleCell .r s.fetchAddr) ∧ s.instrAt s.fetchAddr = none ∧
      s.config.illegalPolicy = .fault) := by
  rcases step_cases s with ⟨l, hl, hs, heq⟩ | ⟨hn, heq⟩
  · rw [fetchAddr_of_entry hl hs]
    exact (executeAtP_fault (andThen_fault (heq ▸ h)) :)
  · rw [fetchAddr_of_no_entry hn]
    exact executeAtP_fault (andThen_fault (heq ▸ h))

/-- No step refuses: every instruction has a meaning. -/
theorem step_ne_refused {e : Refusal} : step s ≠ .refused e := by
  intro h
  rcases step_cases s with ⟨_, _, _, heq⟩ | ⟨_, heq⟩ <;> exact executeAtP_ne_refused (andThen_refused (heq ▸ h))

/-- With eight banks the only fault of a step is a reserved word under policy `fault`. -/
theorem step_fault_of_eight (hbanks : s.config.numBanks = 8) (h : step s = .fault f) :
    f = .illegalInstruction s.fetchAddr (s.roleCell .r s.fetchAddr) ∧ s.instrAt s.fetchAddr = none ∧
      s.config.illegalPolicy = .fault := by
  refine (step_fault h).resolve_left ?_
  rintro ⟨role, _, _, _, hmissing⟩
  simp [State.bankExists_of_eight hbanks role] at hmissing

/-- Settles O39: READ and WRITE by the two conditions of R51; with eight banks every bank a step reads exists. -/
theorem addressFaultExactlyWhenNotAdmitted : Obligations.AddressFaultExactlyWhenNotAdmitted := by
  refine ⟨fun role addr v s => ⟨fun h => ?_, fun h => ?_⟩, fun s hbanks role addr h => ?_⟩
  · exact ⟨⟨_, perform_read_of_admits h⟩, ⟨_, perform_write_of_admits v h⟩⟩
  · exact ⟨perform_read_of_not_admits h, perform_write_of_not_admits v h⟩
  · obtain ⟨hf, -⟩ := step_fault_of_eight hbanks h
    cases hf

/-- Settles O40: the step neither refuses nor faults, as its one possible fault contradicts the hypothesis. -/
theorem stepCompletesWithEightBanks : Obligations.StepCompletesWithEightBanks := by
  intro s hbanks hword
  cases h : step s with
  | next t => exact ⟨t, rfl⟩
  | fault f =>
    obtain ⟨-, hi, hp⟩ := step_fault_of_eight hbanks h
    exact hword.elim (absurd hi) (absurd hp)
  | refused e => exact absurd h step_ne_refused

end Sys2Proof.Machine
end

section
/-! ## The Buffer select

No instruction reads through role b (spec/20_memory.md R56): two states that differ in the Buffer select only make the
same step, but for that select. -/

namespace Sys2Proof.Machine

variable {s : State}

/-- A result with the Buffer select of its next state blotted out. -/
def hideBuffer (o : Result) : Result := andThen o fun t => t.setBsel .b 0

/-! ### Reads and operands -/

theorem readThen_setBsel_other {role role' : Role} (h : role' ≠ role) (x : BankNo) (addr : Word) (k : Word → Result) :
    readThen role' addr (s.setBsel role x) k = readThen role' addr s k := by
  simp only [readThen, memRead_setBsel_other h]

/-- No operand mode reads through role b (R56). -/
theorem operandThen_setBuffer (mode : Mode) (x : BankNo) (k : Word → Result) :
    operandThen mode (s.setBsel .b x) k = operandThen mode s k := by
  have hd : Role.d ≠ .b := by decide
  have hi : Role.i ≠ .b := by decide
  have hr : Role.r ≠ .b := by decide
  cases mode with
  | n _ | c _ => rfl
  | d _ => exact readThen_setBsel_other hd x _ k
  | m _ => exact readThen_setBsel_other hi x _ k
  | f _ | b _ => exact readThen_setBsel_other hr x _ k
  | i _ => simp only [operandThen, readThen_setBsel_other hd, readThen_setBsel_other hi]

/-- What a read leads to is followed by `f` whichever word it gets. -/
theorem andThen_readThen (role : Role) (addr : Word) (s : State) (k : Word → Result) (f : State → State) :
    andThen (readThen role addr s k) f = readThen role addr s fun v => andThen (k v) f := by
  cases hb : s.bankExists role with
  | false => simp only [readThen_of_missing hb, andThen]
  | true => simp only [readThen_of_exists hb]

theorem andThen_operandThen (mode : Mode) (s : State) (k : Word → Result) (f : State → State) :
    andThen (operandThen mode s k) f = operandThen mode s fun v => andThen (k v) f := by
  cases mode with
  | n _ | c _ => rfl
  | d _ | m _ | f _ | b _ => exact andThen_readThen _ _ s k f
  | i _ => simp only [operandThen, andThen_readThen]

/-! ### Instructions -/

theorem loadA_setBuffer (mode : Mode) (x : BankNo) :
    hideBuffer (loadA mode (s.setBsel .b x)) = hideBuffer (loadA mode s) := by
  simp only [loadA, operandThen_setBuffer, hideBuffer, andThen_operandThen]
  rfl

theorem jumpVia_setBuffer (mode : Mode) (x : BankNo) :
    hideBuffer (jumpVia mode (s.setBsel .b x)) = hideBuffer (jumpVia mode s) := by
  simp only [jumpVia, operandThen_setBuffer, hideBuffer, andThen_operandThen]
  rfl

theorem jumpIf_setBuffer (c : Condition) (target : Word) (x : BankNo) :
    hideBuffer (jumpIf c target (s.setBsel .b x)) = hideBuffer (jumpIf c target s) := by
  simp only [jumpIf_eq]
  rfl

/-- The Buffer select changes nothing else that an instruction does; SBU overwrites it. -/
theorem exec_setBuffer (i : Instr) (x : BankNo) :
    hideBuffer (exec i (s.setBsel .b x)) = hideBuffer (exec i s) := by
  cases i with
  | ldn e => exact loadA_setBuffer (.n e) x
  | ldd e => exact loadA_setBuffer (.d e) x
  | ldi e => exact loadA_setBuffer (.i e) x
  | ldm g => exact loadA_setBuffer (.m g) x
  | ldf e => exact loadA_setBuffer (.f e) x
  | ldc g => exact loadA_setBuffer (.c g) x
  | ldb e => exact loadA_setBuffer (.b e) x
  | zjf _ | nzf _ | pjf _ | njf _ | zjb _ | nzb _ | pjb _ | njb _ => exact jumpIf_setBuffer _ _ x
  | jpi e => exact jumpVia_setBuffer (.d e) x
  | jfi e => exact jumpVia_setBuffer (.f e) x
  | cil => simp only [exec_cil, beginUnlock_eq]; rfl
  | lcn _ | nop _ | hlt _ | srj _ | sic _ | irj _ | sdc _ | drj _ | sid _ | acj _ | sbu _ => rfl

theorem execReserved_setBuffer (w : Word) (x : BankNo) :
    hideBuffer (execReserved w (s.setBsel .b x)) = hideBuffer (execReserved w s) := by
  simp only [execReserved, State.setBsel_config]
  cases s.config.illegalPolicy <;> rfl

/-! ### A step -/

/-- The Buffer select changes nothing else that ExecuteAtP does: it neither fetches nor executes through role b. -/
theorem executeAtP_setBuffer (x : BankNo) : hideBuffer (executeAtP (s.setBsel .b x)) = hideBuffer (executeAtP s) := by
  have hr : Role.r ≠ .b := by decide
  have hexists := State.bankExists_setBsel_other (s := s) hr x
  cases hb : s.bankExists .r with
  | false => rw [executeAtP_of_missing hb, executeAtP_of_missing (hexists.trans hb), State.setBsel_p]
  | true =>
    rw [executeAtP_of_exists hb, executeAtP_of_exists (hexists.trans hb), State.setBsel_p,
      State.instrAt_setBsel_other hr.symm, State.roleCell_setBsel_other hr]
    cases s.instrAt s.p with
    | some i => exact exec_setBuffer i x
    | none => exact execReserved_setBuffer _ x

/-- Results alike but for the Buffer select stay so where what follows neither reads that select nor writes it. -/
theorem hideBuffer_andThen_congr {o o' : Result} {f : State → State}
    (hf : ∀ t x, f (t.setBsel .b x) = (f t).setBsel .b x) (h : hideBuffer o = hideBuffer o') :
    hideBuffer (andThen o f) = hideBuffer (andThen o' f) := by
  have swap : ∀ o : Result, hideBuffer (andThen o f) = andThen (hideBuffer o) f := by
    intro o
    cases o with
    | next t => exact congrArg Host.Outcome.next (hf t 0).symm
    | fault _ | refused _ => rfl
  rw [swap, swap, h]

theorem advanceUnlock_setBsel (l : Lock) (t : State) (role : Role) (x : BankNo) :
    advanceUnlock l (t.setBsel role x) = (advanceUnlock l t).setBsel role x := by
  cases l <;> rfl

/-- The Buffer select changes nothing else that a step does. -/
theorem step_setBuffer (s : State) (x : BankNo) : hideBuffer (step (s.setBsel .b x)) = hideBuffer (step s) := by
  rcases step_cases s with ⟨l, hl, hs, heq⟩ | ⟨hn, heq⟩
  · rw [heq, step_of_entry (s := s.setBsel .b x) hl hs]
    exact hideBuffer_andThen_congr (fun _ _ => rfl) (executeAtP_setBuffer (s := enterInterrupt l s) x)
  · rw [heq, step_of_no_entry (s := s.setBsel .b x) hn]
    exact hideBuffer_andThen_congr (fun t x => advanceUnlock_setBsel _ t .b x) (executeAtP_setBuffer x)

/-- Settles O36: the two steps differ in the Buffer select of their next states only, so they fault alike, and the
other select put back gives the same next state. -/
theorem stepDoesNotReadBufferSelect : Obligations.StepDoesNotReadBufferSelect := by
  intro s x
  have hstep := step_setBuffer s x
  refine ⟨fun f h => ?_, fun t h => ?_⟩
  · rw [h] at hstep
    exact andThen_fault hstep
  · rw [h] at hstep
    obtain ⟨t', ht', heq⟩ := andThen_next hstep
    exact ⟨t', ht', congrArg (fun u => u.setBsel .b t.bsel.b) heq.symm⟩

end Sys2Proof.Machine
end

section
/-! ## Memory while Run is looping

Everything one round of Run can end in or go on to (spec/40_cycle.md R118 to R120), and the frame of a run
(spec/20_memory.md R63). -/

namespace Sys2Proof.Machine

/-- The state at a boundary of Run, after the host has acted (R119). -/
def boundaryState (ops : List HostOp) (s : State) : State := (session (allowedPrefix ops) s).state

/-- Everything the host can change at a boundary of Run: PEND and RUN (R214). -/
theorem boundaryState_frame (ops : List HostOp) (s : State) :
    { boundaryState ops s with pend := s.pend, run := s.run } = s :=
  session_of_allowed (fun _ => allowed_of_mem_allowedPrefix) s

theorem boundaryState_mem (ops : List HostOp) (s : State) : (boundaryState ops s).mem = s.mem :=
  (congrArg State.mem (boundaryState_frame ops s) :)

theorem boundaryState_config (ops : List HostOp) (s : State) : (boundaryState ops s).config = s.config :=
  (congrArg State.config (boundaryState_frame ops s) :)

/-- Everything one round of Run can come to: it ends before the boundary or at it, or goes on from the step after it. -/
theorem runLoop_cons_cases (ops : List HostOp) (schedule : List (List HostOp)) (s : State) :
    let ending := (runLoop (ops :: schedule) s).ending
    let b := boundaryState ops s
    (s.run = false ∧ ending = .returned s) ∨
    (s.run = true ∧ ∃ op, firstNotAllowed ops = some op ∧ ending = .notAllowed op b) ∨
    (s.run = true ∧ firstNotAllowed ops = none ∧
      ((b.run = false ∧ ending = .returned b) ∨
       (b.run = true ∧
        ((∃ f, step b = .fault f ∧ ending = .faulted f b) ∨
         ∃ u, step b = .next u ∧ ending = (runLoop schedule u).ending)))) := by
  intro ending b
  cases hr : s.run with
  | false => exact .inl ⟨rfl, by simp only [ending, runLoop_of_stopped _ hr]⟩
  | true =>
    refine .inr ?_
    cases hn : firstNotAllowed ops with
    | some op => exact .inl ⟨rfl, op, rfl, by simp only [ending, runLoop_of_notAllowed _ hr hn]; rfl⟩
    | none =>
      have hallowed := firstNotAllowed_eq_none.1 hn
      have hb : (session ops s).state = b := by simp only [b, boundaryState, allowedPrefix_of_allowed hallowed]
      have hround := runLoop_of_allowed schedule hr hallowed
      rw [hb] at hround
      refine .inr ⟨rfl, rfl, ?_⟩
      cases hbr : b.run with
      | false => exact .inl ⟨rfl, by simp [ending, hround, hbr]⟩
      | true =>
        refine .inr ⟨rfl, ?_⟩
        cases hs : step b with
        | next u => exact .inr ⟨u, rfl, by simp [ending, hround, hbr, hs]⟩
        | fault f => exact .inl ⟨f, rfl, by simp [ending, hround, hbr, hs]⟩
        | refused e => exact absurd hs step_ne_refused

/-- A run ends with the memory and the parameters it began with. -/
theorem runLoop_frame (schedule : List (List HostOp)) (s : State) :
    (runLoop schedule s).ending.state.mem = s.mem ∧ (runLoop schedule s).ending.state.config = s.config := by
  induction schedule generalizing s with
  | nil =>
    rw [runLoop_nil]
    cases s.run <;> exact ⟨rfl, rfl⟩
  | cons ops schedule ih =>
    have hboundary := And.intro (boundaryState_mem ops s) (boundaryState_config ops s)
    rcases runLoop_cons_cases ops schedule s with
      ⟨-, hend⟩ | ⟨-, op, -, hend⟩ | ⟨-, -, ⟨-, hend⟩ | ⟨-, ⟨f, -, hend⟩ | ⟨u, hstep, hend⟩⟩⟩ <;> rw [hend]
    · exact ⟨rfl, rfl⟩
    · exact hboundary
    · exact hboundary
    · exact hboundary
    · obtain ⟨hmem, hconfig⟩ := ih u
      exact ⟨hmem.trans ((step_mem hstep).trans hboundary.1), hconfig.trans ((step_config hstep).trans hboundary.2)⟩

/-- A run that ends at an operation that is not allowed has met one. -/
theorem runLoop_notAllowed {schedule : List (List HostOp)} {s t : State} {op : HostOp}
    (h : (runLoop schedule s).ending = .notAllowed op t) : op.allowedDuringRun = false := by
  induction schedule generalizing s with
  | nil =>
    rw [runLoop_nil] at h
    cases hr : s.run <;> simp [hr] at h
  | cons ops schedule ih =>
    rcases runLoop_cons_cases ops schedule s with
      ⟨-, hend⟩ | ⟨-, op', hfirst, hend⟩ | ⟨-, -, ⟨-, hend⟩ | ⟨-, ⟨f, -, hend⟩ | ⟨u, -, hend⟩⟩⟩ <;> rw [hend] at h
    · cases h
    · cases h
      exact firstNotAllowed_eq_some hfirst
    · cases h
    · cases h
    · exact ih h

/-- Settles O57, by induction on the schedule: neither a boundary nor a step writes memory or the parameters. -/
theorem runWritesNoMemory : Obligations.RunWritesNoMemory := fun schedule s =>
  ⟨(runLoop_frame schedule s).1, (runLoop_frame schedule s).2, fun _ _ => runLoop_notAllowed⟩

end Sys2Proof.Machine
end

section
/-! ## The fields of a first word

`F`, `E`, `S` and `X` (spec/30_encoding.md R80, R81) are read back from the words the encoder joins, and every word is
joined from its own fields. -/

namespace Sys2Proof

section

variable (f e : Field) (s : BitVec 3) (x : BankNo) (w : Word)

@[simp] theorem fieldF_joinFE : fieldF (joinFE f e) = f := by
  rw [fieldF, joinFE, BitVec.extractLsb'_append_eq_of_le (by decide)]
  exact BitVec.extractLsb'_eq_self

@[simp] theorem fieldE_joinFE : fieldE (joinFE f e) = e := by
  rw [fieldE, joinFE, BitVec.extractLsb'_append_eq_of_add_le (by decide)]
  exact BitVec.extractLsb'_eq_self

@[simp] theorem fieldF_joinFSX : fieldF (joinFSX f s x) = f := fieldF_joinFE f (s ++ x)

@[simp] theorem fieldS_joinFSX : fieldS (joinFSX f s x) = s := by
  rw [fieldS, joinFSX, BitVec.extractLsb'_append_eq_of_add_le (by decide),
    BitVec.extractLsb'_append_eq_of_le (by decide)]
  exact BitVec.extractLsb'_eq_self

@[simp] theorem fieldX_joinFSX : fieldX (joinFSX f s x) = x := by
  rw [fieldX, joinFSX, BitVec.extractLsb'_append_eq_of_add_le (by decide),
    BitVec.extractLsb'_append_eq_of_add_le (by decide)]
  exact BitVec.extractLsb'_eq_self

/-- A word is its `F` and its `E` (R80). -/
theorem joinFE_fields : joinFE (fieldF w) (fieldE w) = w := by
  rw [joinFE, fieldF, fieldE, BitVec.extractLsb'_append_extractLsb'_eq_extractLsb' (start₂ := 6) rfl]
  exact BitVec.extractLsb'_eq_self

/-- A word is its `F`, its `S` and its `X` (R81). -/
theorem joinFSX_fields : joinFSX (fieldF w) (fieldS w) (fieldX w) = w := by
  rw [joinFSX, fieldS, fieldX, BitVec.extractLsb'_append_extractLsb'_eq_extractLsb' (start₂ := 3) rfl]
  exact joinFE_fields w

/-! ### The fields as numbers -/

theorem fieldF_toNat : (fieldF w).toNat = w.toNat / 64 := by
  have hw := w.isLt
  simp only [fieldF, BitVec.extractLsb'_toNat, Nat.shiftRight_eq_div_pow]
  omega

theorem fieldE_toNat : (fieldE w).toNat = w.toNat % 64 := by
  simp only [fieldE, BitVec.extractLsb'_toNat, Nat.shiftRight_zero]

theorem fieldS_toNat : (fieldS w).toNat = w.toNat / 8 % 8 := by
  simp only [fieldS, BitVec.extractLsb'_toNat, Nat.shiftRight_eq_div_pow]

theorem fieldX_toNat : (fieldX w).toNat = w.toNat % 8 := by
  simp only [fieldX, BitVec.extractLsb'_toNat, Nat.shiftRight_zero]

end

variable {f e : Field} {s : BitVec 3} {x : BankNo} {w : Word}

theorem eq_joinFE_iff : w = joinFE f e ↔ fieldF w = f ∧ fieldE w = e := by
  constructor
  · rintro rfl
    exact ⟨fieldF_joinFE f e, fieldE_joinFE f e⟩
  · rintro ⟨rfl, rfl⟩
    exact (joinFE_fields w).symm

theorem eq_joinFSX_iff : w = joinFSX f s x ↔ fieldF w = f ∧ fieldS w = s ∧ fieldX w = x := by
  constructor
  · rintro rfl
    exact ⟨fieldF_joinFSX f s x, fieldS_joinFSX f s x, fieldX_joinFSX f s x⟩
  · rintro ⟨rfl, rfl, rfl⟩
    exact (joinFSX_fields w).symm

end Sys2Proof
end

section
/-! ## Decoding and encoding

The decoder and the encoder are inverse to each other (spec/30_encoding.md R95, R99): a first word, with the word after
it, names exactly the well-formed instruction it is the encoding of. -/

namespace Sys2Proof

variable {w g : Word} {i : Instr}

/-! ### The exact words -/

/-- The words R99 tests for before the function code. -/
abbrev exactWords : List Word := [0o0120#12, 0o2100#12, 0o2200#12, 0o7700#12, 0o7777#12]

theorem forall_mem_exactWords {q : Word → Prop} :
    (∀ v ∈ exactWords, q v) ↔ q 0o0120#12 ∧ q 0o2100#12 ∧ q 0o2200#12 ∧ q 0o7700#12 ∧ q 0o7777#12 := by
  simp only [exactWords, List.forall_mem_cons, List.not_mem_nil, false_imp_iff, implies_true, and_true]

theorem not_mem_exactWords_iff : w ∉ exactWords ↔
    w ≠ 0o0120#12 ∧ w ≠ 0o2100#12 ∧ w ≠ 0o2200#12 ∧ w ≠ 0o7700#12 ∧ w ≠ 0o7777#12 := by
  simp only [exactWords, List.mem_cons, List.not_mem_nil, or_false, not_or, ne_eq]

/-- Every word but the exact ones is decoded by its function code (R99). -/
theorem decodeFirst_of_not_exact (h : w ∉ exactWords) (g : Word) : decodeFirst w g = decodeByF w := by
  obtain ⟨hcil, hldm, hldc, hhlt, hhlt'⟩ := not_mem_exactWords_iff.1 h
  rw [decodeFirst, if_neg hcil, if_neg hldm, if_neg hldc, if_neg (not_or.2 ⟨hhlt, hhlt'⟩)]

/-- The two-word first words are exact ones (R83). -/
theorem isTwoWord_of_not_exact (h : w ∉ exactWords) : isTwoWord w = false := by
  obtain ⟨-, hldm, hldc, -, -⟩ := not_mem_exactWords_iff.1 h
  simp [isTwoWord, hldm, hldc]

theorem fieldF_of_exact : ∀ v ∈ exactWords, fieldF v ∈ [0o01, 0o21, 0o22, 0o77] :=
  forall_mem_exactWords.2 (by decide)

theorem fieldE_of_exact : ∀ v ∈ exactWords, fieldF v ∈ [0o21, 0o22] → fieldE v = 0 :=
  forall_mem_exactWords.2 (by decide)

theorem fieldS_of_exact : ∀ v ∈ exactWords, fieldF v = 0o01 → fieldS v = 2 :=
  forall_mem_exactWords.2 (by decide)

/-- Away from the function codes of the exact words, the function code decides (R99). -/
theorem decodeFirst_of_fieldF (h : fieldF w ∉ [0o01, 0o21, 0o22, 0o77]) (g : Word) : decodeFirst w g = decodeByF w :=
  decodeFirst_of_not_exact (fun hw => h (fieldF_of_exact w hw)) g

/-- An `E` other than 00 keeps LDI and LDF apart from LDM and LDC (R90). -/
theorem joinFE_not_exact {f e : Field} (hf : f ∈ [0o21, 0o22]) (he : e ≠ 0) : joinFE f e ∉ exactWords := by
  intro h
  have hE := fieldE_of_exact _ h (by rwa [fieldF_joinFE])
  exact he (by rwa [fieldE_joinFE] at hE)

/-- SBU has another `S` than CIL (R88). -/
theorem joinFSX_not_exact (x : BankNo) : joinFSX 0o01 4 x ∉ exactWords := by
  intro h
  have hS := fieldS_of_exact _ h (fieldF_joinFSX _ _ x)
  rw [fieldS_joinFSX] at hS
  exact absurd hS (by decide)

/-! ### From an instruction to its words and back -/

theorem encode_eq_cons (i : Instr) : ∃ w ws, encode i = w :: ws := by
  cases i <;> exact ⟨_, _, rfl⟩

/-- The first word of a well-formed instruction, with the word after it, decodes to it; where the encoding has one word
the word after it is any word. -/
theorem decodeFirst_encode {ws : List Word} (hi : i.wf = true) (h : encode i = w :: ws) (g : Word) :
    decodeFirst w (ws.headD g) = some i := by
  cases i with
  | ldm g | ldc g | cil =>
    cases h
    rfl
  | hlt e =>
    cases h
    have he : e = 0o00 ∨ e = 0o77 := by simpa [Instr.wf] using hi
    rcases he with rfl | rfl <;> rfl
  | ldn e | lcn e | ldd e | zjf e | nzf e | pjf e | njf e | zjb e | nzb e | pjb e | njb e =>
    cases h
    rw [decodeFirst_of_fieldF (by simp)]
    simp [decodeByF]
  | ldb e | jpi e | jfi e =>
    cases h
    have he : e ≠ 0#6 := by simpa [Instr.wf] using hi
    rw [decodeFirst_of_fieldF (by simp)]
    simp [decodeByF, withNonZero, he]
  | ldi e | ldf e =>
    cases h
    have he : e ≠ 0#6 := by simpa [Instr.wf] using hi
    rw [decodeFirst_of_not_exact (joinFE_not_exact (by decide) he)]
    simp [decodeByF, withNonZero, he]
  | nop x =>
    cases h
    have hx : x ≠ 0#3 := by simpa [Instr.wf] using hi
    rw [decodeFirst_of_fieldF (by simp)]
    simp [decodeByF, decodeBankGroup, hx]
  | srj x | sic x | irj x | sdc x | drj x | sid x | acj x =>
    cases h
    rw [decodeFirst_of_fieldF (by simp)]
    simp [decodeByF, decodeBankGroup]
  | sbu x =>
    cases h
    rw [decodeFirst_of_not_exact (joinFSX_not_exact x)]
    simp [decodeByF]

/-! ### From words to an instruction and back -/

theorem withNonZero_some {e : Field} {mk : Field → Instr} (h : withNonZero e mk = some i) : e ≠ 0 ∧ i = mk e := by
  unfold withNonZero at h
  split at h
  · cases h
  · exact ⟨‹_›, (Option.some.inj h).symm⟩

theorem singleton_joinFE {f : Field} (hF : fieldF w = f) : [joinFE f (fieldE w)] = [w] := by
  rw [← hF, joinFE_fields]

theorem singleton_joinFSX {f : Field} {s : BitVec 3} (hF : fieldF w = f) (hS : fieldS w = s) :
    [joinFSX f s (fieldX w)] = [w] := by
  rw [← hF, ← hS, joinFSX_fields]

theorem encode_of_decodeBankGroup (hF : fieldF w = 0) (h : decodeBankGroup (fieldS w) (fieldX w) = some i) :
    i.wf = true ∧ encode i = [w] := by
  unfold decodeBankGroup at h
  split at h
  case h_1 hS =>
    split at h
    · cases h
    · cases h
      exact ⟨by simpa [Instr.wf], singleton_joinFSX hF hS⟩
  case h_2 hS | h_3 hS | h_4 hS | h_5 hS | h_6 hS | h_7 hS | h_8 hS =>
    cases h
    exact ⟨rfl, singleton_joinFSX hF hS⟩

/-- What a word decodes to by its function code is well formed, and the word is its encoding. -/
theorem encode_of_decodeByF (h : decodeByF w = some i) : i.wf = true ∧ encode i = [w] := by
  unfold decodeByF at h
  split at h
  case h_1 hF => exact encode_of_decodeBankGroup hF h
  case h_2 hF =>
    split at h
    · cases h
      exact ⟨rfl, singleton_joinFSX hF ‹_›⟩
    · cases h
  case h_6 hF | h_7 hF | h_8 hF | h_17 hF | h_18 hF =>
    obtain ⟨he, rfl⟩ := withNonZero_some h
    exact ⟨bne_iff_ne.2 he, singleton_joinFE hF⟩
  case h_3 hF | h_4 hF | h_5 hF | h_9 hF | h_10 hF | h_11 hF | h_12 hF | h_13 hF | h_14 hF | h_15 hF | h_16 hF =>
    cases h
    exact ⟨rfl, singleton_joinFE hF⟩
  case h_19 => cases h

/-- What a first word decodes to is well formed, and the word, with its second word if it has one, is its encoding. -/
theorem encode_of_decodeFirst (h : decodeFirst w g = some i) :
    i.wf = true ∧ encode i = if isTwoWord w then [w, g] else [w] := by
  by_cases hw : w ∈ exactWords
  · simp only [List.mem_cons, List.not_mem_nil, or_false] at hw
    rcases hw with rfl | rfl | rfl | rfl | rfl <;> cases h <;> exact ⟨rfl, rfl⟩
  · rw [decodeFirst_of_not_exact hw] at h
    rw [isTwoWord_of_not_exact hw]
    exact encode_of_decodeByF h

/-! ### Lists of words -/

theorem decode_oneWord (hw : isTwoWord w = false) (h : decodeFirst w 0 = some i) (rest : List Word) :
    decode (w :: rest) = .ok (i, rest) := by
  simp only [decode, hw, h, Bool.false_eq_true, if_false]

theorem decode_twoWord (hw : isTwoWord w = true) (h : decodeFirst w g = some i) (rest : List Word) :
    decode (w :: g :: rest) = .ok (i, rest) := by
  simp only [decode, hw, h, if_true]

/-- Settles O2: the first word decodes to the instruction, so the encoding has a second word exactly where `decode`
takes one. -/
theorem decodeOfEncode : Obligations.DecodeOfEncode := by
  intro i rest hi
  obtain ⟨w, ws, henc⟩ := encode_eq_cons i
  have hd := decodeFirst_encode hi henc 0
  obtain ⟨-, hws⟩ := encode_of_decodeFirst hd
  rw [henc] at hws ⊢
  cases hw : isTwoWord w with
  | false =>
    obtain rfl : ws = [] := by simpa [hw] using hws
    exact decode_oneWord hw hd rest
  | true =>
    obtain ⟨g, rfl⟩ : ∃ g, ws = [g] := ⟨_, by simpa [hw] using hws⟩
    exact decode_twoWord hw hd rest

/-- Settles O3, by the two forms of a successful decode: one word, or two. -/
theorem encodeOfDecode : Obligations.EncodeOfDecode := by
  intro ws i rest h
  rcases decode_ok_cases h with ⟨w, rfl, hw, hd⟩ | ⟨w, g, rfl, hw, hd⟩
  · obtain ⟨hi, henc⟩ := encode_of_decodeFirst (hd 0)
    exact ⟨hi, by simp [henc, hw]⟩
  · obtain ⟨hi, henc⟩ := encode_of_decodeFirst hd
    exact ⟨hi, by simp [henc, hw]⟩

/-- Settles O1: each word is decoded by evaluation. -/
theorem writtenWordsDecode : Obligations.WrittenWordsDecode := by
  unfold Obligations.WrittenWordsDecode
  and_intros <;> rfl

end Sys2Proof
end

section
/-! ## The rows of the opcode table

The 30 rows of the table and the tests of R99 decode alike (spec/30_encoding.md R95, R99).  A row tests a whole word,
its function code, or its function code and `S`; no two rows name one word. -/

namespace Sys2Proof

variable {w p : Word} {i : Instr} {except : List Word} {build : Word → Word → Instr}

/-! ### The words a row names -/

theorem OpcodeRow.names_iff (r : OpcodeRow) : r.names w = true ↔ w &&& r.mask = r.pattern ∧ w ∉ r.except := by
  simp [OpcodeRow.names]

/-- The mask of all bits keeps a word. -/
theorem and_maskAll : w &&& 0o7777 = w := BitVec.and_allOnes

theorem names_exact : OpcodeRow.names ⟨0o7777, p, [], build⟩ w = true ↔ w = p := by
  simp only [OpcodeRow.names_iff, and_maskAll, List.not_mem_nil, not_false_eq_true, and_true]

theorem names_FE {f : Field} :
    OpcodeRow.names ⟨0o7700, joinFE f 0, except, build⟩ w = true ↔ fieldF w = f ∧ w ∉ except := by
  have hF : fieldF (w &&& 0o7700) = fieldF w := BitVec.extractLsb'_and.trans BitVec.and_allOnes
  have hE : fieldE (w &&& 0o7700) = 0 := BitVec.extractLsb'_and.trans BitVec.and_zero
  simp only [OpcodeRow.names_iff, eq_joinFE_iff, hF, hE, and_true]

theorem names_FSX {f : Field} {s : BitVec 3} :
    OpcodeRow.names ⟨0o7770, joinFSX f s 0, except, build⟩ w = true ↔
      (fieldF w = f ∧ fieldS w = s) ∧ w ∉ except := by
  have hF : fieldF (w &&& 0o7770) = fieldF w := BitVec.extractLsb'_and.trans BitVec.and_allOnes
  have hS : fieldS (w &&& 0o7770) = fieldS w := BitVec.extractLsb'_and.trans BitVec.and_allOnes
  have hX : fieldX (w &&& 0o7770) = 0 := BitVec.extractLsb'_and.trans BitVec.and_zero
  simp only [OpcodeRow.names_iff, eq_joinFSX_iff, hF, hS, hX, and_true]

/-! ### Every row agrees with the tests -/

/-- The tests of R99 decode every word the row names to what the row builds. -/
abbrev OpcodeRow.Agrees (r : OpcodeRow) : Prop :=
  ∀ w g : Word, r.names w = true → decodeFirst w g = some (r.build w g)

theorem agrees_exact (p : Word) (h : ∀ g, decodeFirst p g = some (build p g) := by exact fun _ => rfl) :
    OpcodeRow.Agrees ⟨0o7777, p, [], build⟩ := by
  intro w g hn
  rw [names_exact.1 hn]
  exact h g

theorem agrees_FE (f : Field) {mk : Field → Instr}
    (henc : ∀ e, encode (mk e) = [joinFE f e] := by exact fun _ => rfl)
    (hwf : ∀ e, joinFE f e ∉ except → (mk e).wf = true := by exact fun _ _ => rfl) :
    OpcodeRow.Agrees ⟨0o7700, joinFE f 0, except, fun w _ => mk (fieldE w)⟩ := by
  intro w g hn
  obtain ⟨rfl, hex⟩ := names_FE.1 hn
  have hi : (mk (fieldE w)).wf = true := hwf _ (by rwa [joinFE_fields])
  exact decodeFirst_encode hi (by rw [henc, joinFE_fields]) g

theorem agrees_FSX (f : Field) (s : BitVec 3) {mk : BankNo → Instr}
    (henc : ∀ x, encode (mk x) = [joinFSX f s x] := by exact fun _ => rfl)
    (hwf : ∀ x, joinFSX f s x ∉ except → (mk x).wf = true := by exact fun _ _ => rfl) :
    OpcodeRow.Agrees ⟨0o7770, joinFSX f s 0, except, fun w _ => mk (fieldX w)⟩ := by
  intro w g hn
  obtain ⟨⟨rfl, rfl⟩, hex⟩ := names_FSX.1 hn
  have hi : (mk (fieldX w)).wf = true := hwf _ (by rwa [joinFSX_fields])
  exact decodeFirst_encode hi (by rw [henc, joinFSX_fields]) g

theorem opcodeTableExact_agrees : ∀ r ∈ opcodeTableExact, r.Agrees := by
  simp only [opcodeTableExact, List.forall_mem_cons, List.not_mem_nil, false_imp_iff, implies_true, and_true]
  exact ⟨agrees_exact 0o0120, agrees_exact 0o2100, agrees_exact 0o2200, agrees_exact 0o7700, agrees_exact 0o7777⟩

theorem opcodeTableBank_agrees : ∀ r ∈ opcodeTableBank, r.Agrees := by
  simp only [opcodeTableBank, List.forall_mem_cons, List.not_mem_nil, false_imp_iff, implies_true, and_true]
  exact ⟨agrees_FSX 0o00 0 (hwf := by decide), agrees_FSX 0o00 1, agrees_FSX 0o00 2, agrees_FSX 0o00 3,
    agrees_FSX 0o00 4, agrees_FSX 0o00 5, agrees_FSX 0o00 6, agrees_FSX 0o00 7, agrees_FSX 0o01 4⟩

theorem opcodeTableLoad_agrees : ∀ r ∈ opcodeTableLoad, r.Agrees := by
  simp only [opcodeTableLoad, List.forall_mem_cons, List.not_mem_nil, false_imp_iff, implies_true, and_true]
  exact ⟨agrees_FE 0o04, agrees_FE 0o05, agrees_FE 0o20, agrees_FE 0o21 (hwf := by decide),
    agrees_FE 0o22 (hwf := by decide), agrees_FE 0o23 (hwf := by decide)⟩

theorem opcodeTableJump_agrees : ∀ r ∈ opcodeTableJump, r.Agrees := by
  simp only [opcodeTableJump, List.forall_mem_cons, List.not_mem_nil, false_imp_iff, implies_true, and_true]
  exact ⟨agrees_FE 0o60, agrees_FE 0o61, agrees_FE 0o62, agrees_FE 0o63, agrees_FE 0o64, agrees_FE 0o65,
    agrees_FE 0o66, agrees_FE 0o67, agrees_FE 0o70 (hwf := by decide), agrees_FE 0o71 (hwf := by decide)⟩

theorem opcodeTable_agrees {r : OpcodeRow} (hr : r ∈ opcodeTable) : r.Agrees := by
  simp only [opcodeTable, List.mem_append] at hr
  rcases hr with ((hr | hr) | hr) | hr
  · exact opcodeTableExact_agrees r hr
  · exact opcodeTableBank_agrees r hr
  · exact opcodeTableLoad_agrees r hr
  · exact opcodeTableJump_agrees r hr

/-! ### Every named word has a row -/

/-- Some row of the table names the word. -/
abbrev HasRow (w : Word) : Prop := ∃ r ∈ opcodeTable, r.names w = true

theorem hasRow_exact (k : Nat) (hk : k < opcodeTable.length := by decide)
    (hrow : opcodeTable[k] = ⟨0o7777, p, [], build⟩ := by rfl) : HasRow p :=
  ⟨_, List.getElem_mem hk, by rw [hrow]; exact names_exact.2 rfl⟩

theorem hasRow_FE {f e : Field} (k : Nat) (hex : joinFE f e ∉ except) (hk : k < opcodeTable.length := by decide)
    (hrow : opcodeTable[k] = ⟨0o7700, joinFE f 0, except, build⟩ := by rfl) : HasRow (joinFE f e) :=
  ⟨_, List.getElem_mem hk, by rw [hrow]; exact names_FE.2 ⟨fieldF_joinFE f e, hex⟩⟩

theorem hasRow_FSX {f : Field} {s : BitVec 3} {x : BankNo} (k : Nat) (hex : joinFSX f s x ∉ except)
    (hk : k < opcodeTable.length := by decide)
    (hrow : opcodeTable[k] = ⟨0o7770, joinFSX f s 0, except, build⟩ := by rfl) : HasRow (joinFSX f s x) :=
  ⟨_, List.getElem_mem hk, by rw [hrow]; exact names_FSX.2 ⟨⟨fieldF_joinFSX f s x, fieldS_joinFSX f s x⟩, hex⟩⟩

theorem joinFE_not_mem {f e : Field} (he : (e != 0) = true) : joinFE f e ∉ [joinFE f 0] := by
  simpa [eq_joinFE_iff] using he

theorem joinFSX_not_mem {f : Field} {s : BitVec 3} {x : BankNo} (hx : (x != 0) = true) :
    joinFSX f s x ∉ [joinFSX f s 0] := by
  simpa [eq_joinFSX_iff] using hx

/-- The first word of a well-formed instruction is named by the row of the instruction, given by its place. -/
theorem hasRow_of_encode {ws : List Word} (hi : i.wf = true) (h : encode i = w :: ws) : HasRow w := by
  cases i <;> cases h
  case cil => exact hasRow_exact 0
  case ldm => exact hasRow_exact 1
  case ldc => exact hasRow_exact 2
  case hlt e =>
    have he : e = 0o00 ∨ e = 0o77 := by simpa [Instr.wf] using hi
    rcases he with rfl | rfl
    · exact hasRow_exact 3
    · exact hasRow_exact 4
  case nop => exact hasRow_FSX 5 (joinFSX_not_mem hi)
  case srj => exact hasRow_FSX 6 List.not_mem_nil
  case sic => exact hasRow_FSX 7 List.not_mem_nil
  case irj => exact hasRow_FSX 8 List.not_mem_nil
  case sdc => exact hasRow_FSX 9 List.not_mem_nil
  case drj => exact hasRow_FSX 10 List.not_mem_nil
  case sid => exact hasRow_FSX 11 List.not_mem_nil
  case acj => exact hasRow_FSX 12 List.not_mem_nil
  case sbu => exact hasRow_FSX 13 List.not_mem_nil
  case ldn => exact hasRow_FE 14 List.not_mem_nil
  case lcn => exact hasRow_FE 15 List.not_mem_nil
  case ldd => exact hasRow_FE 16 List.not_mem_nil
  case ldi => exact hasRow_FE 17 (joinFE_not_mem hi)
  case ldf => exact hasRow_FE 18 (joinFE_not_mem hi)
  case ldb => exact hasRow_FE 19 (joinFE_not_mem hi)
  case zjf => exact hasRow_FE 20 List.not_mem_nil
  case nzf => exact hasRow_FE 21 List.not_mem_nil
  case pjf => exact hasRow_FE 22 List.not_mem_nil
  case njf => exact hasRow_FE 23 List.not_mem_nil
  case zjb => exact hasRow_FE 24 List.not_mem_nil
  case nzb => exact hasRow_FE 25 List.not_mem_nil
  case pjb => exact hasRow_FE 26 List.not_mem_nil
  case njb => exact hasRow_FE 27 List.not_mem_nil
  case jpi => exact hasRow_FE 28 (joinFE_not_mem hi)
  case jfi => exact hasRow_FE 29 (joinFE_not_mem hi)

/-! ### No two rows name one word -/

/-- The patterns of two rows differ where both masks look, or the first row's one word is an exception of the second. -/
def OpcodeRow.apart (r r' : OpcodeRow) : Bool :=
  r.pattern &&& r'.mask != r'.pattern &&& r.mask || r.mask == 0o7777 && r'.except.contains r.pattern

theorem OpcodeRow.not_names_of_apart {r r' : OpcodeRow} (h : r.apart r' = true) (w : Word) :
    ¬(r.names w = true ∧ r'.names w = true) := by
  rintro ⟨hn, hn'⟩
  obtain ⟨hw, -⟩ := r.names_iff.1 hn
  obtain ⟨hw', hex'⟩ := r'.names_iff.1 hn'
  simp only [apart, Bool.or_eq_true, Bool.and_eq_true, bne_iff_ne, beq_iff_eq, List.contains_iff_mem] at h
  rcases h with h | ⟨hmask, hex⟩
  · apply h
    rw [← hw, ← hw', BitVec.and_assoc, BitVec.and_comm r.mask, BitVec.and_assoc]
  · rw [hmask, and_maskAll] at hw
    exact hex' (hw ▸ hex)

theorem opcodeTable_apart : opcodeTable.Pairwise (fun r r' => r.apart r' = true) := by decide

/-- Where no two members of a list both pass a test, at most one passes: the one `find?` finds. -/
theorem length_filter_of_pairwise_not_and {α : Type} {q : α → Bool} {l : List α}
    (h : l.Pairwise fun a b => ¬(q a = true ∧ q b = true)) :
    (l.filter q).length = if (l.find? q).isSome then 1 else 0 := by
  induction l with
  | nil => rfl
  | cons a l ih =>
    obtain ⟨ha, hl⟩ := List.pairwise_cons.1 h
    cases hq : q a with
    | false => simpa [hq] using ih hl
    | true =>
      have hnil : l.filter q = [] := List.filter_eq_nil_iff.2 fun b hb hqb => ha b hb ⟨hq, hqb⟩
      simp [hq, hnil]

/-! ### The table decodes as the tests do -/

theorem decodeFirst_eq_decodeByTable (w g : Word) : decodeFirst w g = decodeByTable w g := by
  unfold decodeByTable
  cases hfind : opcodeTable.find? (·.names w) with
  | some r => exact opcodeTable_agrees (List.mem_of_find?_eq_some hfind) w g (List.find?_some hfind :)
  | none =>
    rw [Option.map_none, Option.eq_none_iff_forall_ne_some]
    intro i hd
    obtain ⟨hi, henc⟩ := encode_of_decodeFirst hd
    obtain ⟨r, hr, hn⟩ : HasRow w := by split at henc <;> exact hasRow_of_encode hi henc
    exact List.find?_eq_none.1 hfind r hr hn

/-- Settles O4: each row agrees with the tests and each named word has a row; the rows are pairwise apart, so the rows
that name a word are as many as the search finds. -/
theorem decoderFollowsOpcodeTable : Obligations.DecoderFollowsOpcodeTable := by
  refine ⟨rfl, decodeFirst_eq_decodeByTable, fun w g => ?_⟩
  have hapart := opcodeTable_apart.imp fun h => OpcodeRow.not_names_of_apart h w
  rw [length_filter_of_pairwise_not_and hapart, decodeFirst_eq_decodeByTable, decodeByTable, Option.isSome_map]

end Sys2Proof
end

section
/-! ## Reserved words

The words that name no instruction are those in the ranges of R96 (spec/30_encoding.md), and what a step does that
fetches one (R96, R97). -/

namespace Sys2Proof

variable {w g : Word}

/-! ### Which words are reserved -/

/-- The reserved words of R96, as ranges of numbers. -/
def reservedRanges : List (Nat × Nat) :=
  [(0o0000, 0o0000), (0o0100, 0o0117), (0o0121, 0o0137), (0o0150, 0o0177), (0o0200, 0o0377), (0o0600, 0o0777),
    (0o1000, 0o1777), (0o2300, 0o2300), (0o2400, 0o5777), (0o7000, 0o7000), (0o7100, 0o7100), (0o7200, 0o7677),
    (0o7701, 0o7776)]

theorem decodeFirst_eq_none_iff : decodeFirst w g = none ↔ w ∉ exactWords ∧ decodeByF w = none := by
  by_cases hw : w ∈ exactWords
  · have hsome : ∀ v ∈ exactWords, decodeFirst v g ≠ none :=
      forall_mem_exactWords.2 ⟨nofun, nofun, nofun, nofun, nofun⟩
    simp only [hsome w hw, hw, not_true_eq_false, false_and]
  · simp only [decodeFirst_of_not_exact hw, hw, not_false_eq_true, true_and]

theorem withNonZero_eq_none_iff {e : Field} {mk : Field → Instr} : withNonZero e mk = none ↔ e = 0#6 := by
  unfold withNonZero
  split <;> simp_all

theorem decodeBankGroup_eq_none_iff {s : BitVec 3} {x : BankNo} :
    decodeBankGroup s x = none ↔ s = 0#3 ∧ x = 0#3 := by
  revert s x
  decide

/-- The words that the function code decodes to nothing: the exact words are among them. -/
theorem decodeByF_eq_none_iff : decodeByF w = none ↔
    w.toNat = 0o0000 ∨ (0o0100 ≤ w.toNat ∧ w.toNat ≤ 0o0137) ∨ (0o0150 ≤ w.toNat ∧ w.toNat ≤ 0o0377) ∨
    (0o0600 ≤ w.toNat ∧ w.toNat ≤ 0o1777) ∨ w.toNat = 0o2100 ∨ w.toNat = 0o2200 ∨ w.toNat = 0o2300 ∨
    (0o2400 ≤ w.toNat ∧ w.toNat ≤ 0o5777) ∨ w.toNat = 0o7000 ∨ w.toNat = 0o7100 ∨ 0o7200 ≤ w.toNat := by
  have hF := fieldF_toNat w
  unfold decodeByF
  split
  case h_1 h =>
    rw [h] at hF
    simp only [decodeBankGroup_eq_none_iff, ← BitVec.toNat_inj, fieldS_toNat, fieldX_toNat, BitVec.toNat_ofNat] at hF ⊢
    omega
  case h_2 h =>
    rw [h] at hF
    have hS : fieldS w = 4 ↔ w.toNat / 8 % 8 = 4 := by rw [← fieldS_toNat, ← BitVec.toNat_inj]; rfl
    simp only [ite_eq_right_iff, reduceCtorEq, imp_false, hS, BitVec.toNat_ofNat] at hF ⊢
    omega
  case h_6 h | h_7 h | h_8 h | h_17 h | h_18 h =>
    rw [h] at hF
    simp only [withNonZero_eq_none_iff, ← BitVec.toNat_inj, fieldE_toNat, BitVec.toNat_ofNat] at hF ⊢
    omega
  case h_3 h | h_4 h | h_5 h | h_9 h | h_10 h | h_11 h | h_12 h | h_13 h | h_14 h | h_15 h | h_16 h =>
    rw [h] at hF
    simp only [reduceCtorEq, false_iff, BitVec.toNat_ofNat] at hF ⊢
    omega
  case h_19 =>
    have hw := w.isLt
    simp only [← BitVec.toNat_inj, hF, BitVec.toNat_ofNat, imp_false, true_iff] at *
    omega

/-- A first word is reserved where it is in one of the ranges (R96). -/
theorem decodeFirst_eq_none_iff_ranges :
    decodeFirst w g = none ↔ ∃ I ∈ reservedRanges, I.1 ≤ w.toNat ∧ w.toNat ≤ I.2 := by
  have hw := w.isLt
  simp only [decodeFirst_eq_none_iff, not_mem_exactWords_iff, decodeByF_eq_none_iff, reservedRanges,
    List.exists_mem_cons_iff, List.not_mem_nil, false_and, exists_false, or_false, ne_eq, ← BitVec.toNat_inj,
    BitVec.toNat_ofNat]
  omega

/-! ### How many words are reserved -/

theorem reservedRanges_lt : ∀ I ∈ reservedRanges, I.2 < 4096 := by decide

theorem reservedRanges_apart : ∀ I ∈ reservedRanges, ∀ J ∈ reservedRanges, I ≠ J → I.2 < J.1 ∨ J.2 < I.1 := by decide

theorem length_filter_range (n : Nat) (q : Nat → Bool) :
    ((List.range n).filter q).length = ((Finset.range n).filter fun k => q k = true).card := by
  rw [← List.toFinset_card_of_nodup (List.nodup_range.filter q), List.toFinset_filter, List.toFinset_range]

/-- The reserved words are the union of the ranges. -/
theorem filter_reserved :
    (Finset.range 4096).filter (fun n => (decodeFirst (BitVec.ofNat 12 n) 0).isNone) =
      reservedRanges.toFinset.biUnion fun I => Finset.Icc I.1 I.2 := by
  ext n
  simp only [Finset.mem_filter, Finset.mem_range, Finset.mem_biUnion, Finset.mem_Icc, List.mem_toFinset,
    Option.isNone_iff_eq_none, decodeFirst_eq_none_iff_ranges, BitVec.toNat_ofNat]
  constructor
  · rintro ⟨hn, hI⟩
    rwa [Nat.mod_eq_of_lt hn] at hI
  · rintro ⟨I, hI, hlo, hhi⟩
    have hn : n < 4096 := hhi.trans_lt (reservedRanges_lt I hI)
    exact ⟨hn, I, hI, by rw [Nat.mod_eq_of_lt hn]; exact ⟨hlo, hhi⟩⟩

theorem card_reserved : (reservedRanges.toFinset.biUnion fun I => Finset.Icc I.1 I.2).card = 3001 := by
  rw [Finset.card_biUnion]
  · rw [List.sum_toFinset _ (by decide)]
    simp only [Nat.card_Icc]
    decide
  · intro I hI J hJ hne
    have hapart := reservedRanges_apart I (List.mem_toFinset.1 hI) J (List.mem_toFinset.1 hJ) hne
    refine Finset.disjoint_left.2 fun n hnI hnJ => ?_
    rw [Finset.mem_Icc] at hnI hnJ
    omega

theorem length_reserved :
    ((List.range 4096).filter fun n => (decodeFirst (BitVec.ofNat 12 n) 0).isNone).length = 3001 := by
  rw [length_filter_range, filter_reserved, card_reserved]

/-- The numbers with a value are those without one left over.  `n` is a variable here so that the kernel does not
evaluate the filter over a known range. -/
theorem length_filter_isSome {α : Type} {n some none : Nat} {q : Nat → Option α}
    (h : ((List.range n).filter fun k => (q k).isNone).length = none) (hn : some + none = n) :
    ((List.range n).filter fun k => (q k).isSome).length = some := by
  have hsum := (List.range n).length_eq_length_filter_add fun k => (q k).isSome
  simp only [List.length_range, Option.not_isSome, h] at hsum
  omega

/-- Settles O5: the ranges of R96 hold 3001 words, and the other 1095 of the 4096 are named. -/
theorem namedWordCount : Obligations.NamedWordCount :=
  ⟨length_filter_isSome length_reserved rfl, length_reserved⟩

end Sys2Proof

namespace Sys2Proof.Machine

variable {s : State}

/-! ### What a step does with a reserved word -/

theorem execReserved_of_fault (h : s.config.illegalPolicy = .fault) (w : Word) :
    execReserved w s = .fault (.illegalInstruction s.p w) := by
  simp only [execReserved, h]

theorem execReserved_of_nop (h : s.config.illegalPolicy = .nop) (w : Word) :
    execReserved w s = .next (s.advance 1) := by
  simp only [execReserved, h, doNothing]

theorem execReserved_of_halt (h : s.config.illegalPolicy = .halt) (w : Word) :
    execReserved w s = .next ((s.setRun false).advance 1) := by
  simp only [execReserved, h, halt]

theorem executeAtP_of_reserved (hr : s.bsel.r.toNat < s.config.numBanks) (hi : s.instrAt s.p = none) :
    executeAtP s = execReserved (s.roleCell .r s.p) s := by
  rw [executeAtP_of_exists ((State.bankExists_iff s .r).2 hr), hi]

theorem step_of_reserved (hn : s.lock ≠ .free ∨ s.pend = []) (hr : s.bsel.r.toNat < s.config.numBanks)
    (hi : s.instrAt s.p = none) :
    step s = andThen (execReserved (s.roleCell .r s.p) s) (advanceUnlock s.lock) := by
  rw [step_of_no_entry hn, executeAtP_of_reserved hr hi]

/-- A reserved word in the vector slot is executed there, after the entry has set P and PEND. -/
theorem step_of_reserved_slot {l : Nat} (hl : s.lock = .free) (hs : select s.config.priority s.pend = some l)
    (hr : s.bsel.r.toNat < s.config.numBanks) (hi : s.instrAt s.fetchAddr = none) :
    step s = andThen (execReserved (s.roleCell .r s.fetchAddr) (enterInterrupt l s)) finishEntry := by
  rw [fetchAddr_of_entry hl hs] at hi ⊢
  rw [step_of_entry hl hs, executeAtP_of_reserved (s := enterInterrupt l s) hr hi]
  rfl

/-- Under policy `fault` a step that fetches a reserved word faults with it, at P or in the vector slot (R96). -/
theorem step_of_reserved_fault (hp : s.config.illegalPolicy = .fault) (hr : s.bsel.r.toNat < s.config.numBanks)
    (hi : s.instrAt s.fetchAddr = none) :
    step s = .fault (.illegalInstruction s.fetchAddr (s.roleCell .r s.fetchAddr)) := by
  cases he : s.enteredLevel with
  | some l =>
    obtain ⟨hl, hs⟩ := enteredLevel_eq_some.1 he
    rw [step_of_reserved_slot hl hs hr hi, execReserved_of_fault (s := enterInterrupt l s) hp, enterInterrupt_p,
      fetchAddr_of_entry hl hs, andThen]
  | none =>
    have hn := enteredLevel_eq_none.1 he
    rw [fetchAddr_of_no_entry hn] at hi ⊢
    rw [step_of_reserved hn hr hi, execReserved_of_fault hp, andThen]

/-- Settles O6: the ranges of R96 written out, and the fault of a step that fetches a reserved word. -/
theorem reservedWordsListedAndFault : Obligations.ReservedWordsListedAndFault := by
  refine ⟨fun w g => ?_, fun s hp hr hi => step_of_reserved_fault hp hr hi⟩
  simp only [decodeFirst_eq_none_iff_ranges, reservedRanges, List.exists_mem_cons_iff, List.not_mem_nil, false_and,
    exists_false, or_false]
  omega

/-- Settles O7: the effect of the policy, followed by the lock advance or the end of the entry. -/
theorem reservedWordUnderOtherPolicies : Obligations.ReservedWordUnderOtherPolicies := by
  refine ⟨fun s hn hr hi => ⟨fun hp => ?_, fun hp => ?_⟩, fun s l hl hs hr hi => ⟨fun hp => ?_, fun hp => ?_⟩⟩
  · rw [step_of_reserved hn hr hi, execReserved_of_nop hp, andThen, advanceUnlock_eq]
    rfl
  · rw [step_of_reserved hn hr hi, execReserved_of_halt hp, andThen, advanceUnlock_eq]
    rfl
  · rw [step_of_reserved_slot hl hs hr hi, execReserved_of_nop (s := enterInterrupt l s) hp, andThen,
      fetchAddr_of_entry hl hs]
    rfl
  · rw [step_of_reserved_slot hl hs hr hi, execReserved_of_halt (s := enterInterrupt l s) hp, andThen,
      fetchAddr_of_entry hl hs]
    rfl

end Sys2Proof.Machine
end

section
/-! ## The normal step and the deferred unlock

A step that enters no interrupt is the instruction at P followed by the lock advance (spec/40_cycle.md R110, R115), so
a CIL executed while LOCKED lets one more normal step by before an entry (R116). -/

namespace Sys2Proof.Machine

variable {i : Instr} {s t : State}

theorem executeAtP_of_instr (hr : s.bsel.r.toNat < s.config.numBanks) (hi : s.instrAt s.p = some i) :
    executeAtP s = exec i s := by
  rw [executeAtP_of_exists ((State.bankExists_iff s .r).2 hr), hi]

/-- The lock advance at the end of a normal step writes LOCK only (R115). -/
theorem step_eq_executeAtP (hn : s.lock ≠ .free ∨ s.pend = []) :
    step s = andThen (executeAtP s) fun t => t.setLock (if s.lock = .unlockPending then .free else t.lock) := by
  rw [step_of_no_entry hn, funext (advanceUnlock_eq s.lock)]

/-- Settles O27: a normal step is ExecuteAtP and the lock advance, and ExecuteAtP is the instruction the words at P
decode to. -/
theorem stepExecutesTheDecodedInstruction : Obligations.StepExecutesTheDecodedInstruction := by
  refine ⟨fun s hn => step_eq_executeAtP hn, fun s i rest hn hr hd => ?_⟩
  rw [step_eq_executeAtP hn, executeAtP_of_instr hr (decodeFirst_of_decode hd)]
  rfl

theorem step_pend_of_not_free (h : step s = .next t) (hl : s.lock ≠ .free) : t.pend = s.pend :=
  (step_pend h).resolve_right fun ⟨hfree, _⟩ => hl hfree

/-- A step that starts FREE with levels pending removes one of them (R243). -/
theorem step_pend_of_entry (h : step s = .next t) (hl : s.lock = .free) (hne : s.pend ≠ []) :
    ∃ l ∈ s.pend, t.pend = removeLevel l s.pend := by
  rcases step_next_cases h with ⟨l, _, _, hs, hu, rfl⟩ | ⟨hn, _⟩
  · exact ⟨l, select_mem hs, executeAtP_pend hu⟩
  · exact absurd (hn.resolve_left (absurd hl)) hne

theorem removeLevel_ne {l : Nat} {pend : List Nat} (h : l ∈ pend) : removeLevel l pend ≠ pend := by
  intro heq
  have hl : l ∈ removeLevel l pend := by rwa [heq]
  exact ((mem_removeLevel l l pend).1 hl).2 rfl

/-- Settles O32: LOCKED, UNLOCK_PENDING and FREE in turn; a step enters, and writes PEND, from FREE only. -/
theorem unlockIsDeferredByOneStep : Obligations.UnlockIsDeferredByOneStep := by
  intro s t u hlocked hcil hst htu
  have ht : t.lock = .unlockPending := by rw [step_lock_of_locked hst hlocked, if_pos hcil]
  have hu : u.lock = .free := step_lock_of_unlockPending htu ht
  have htp : t.pend = s.pend := step_pend_of_not_free hst (by simp [hlocked])
  have hup : u.pend = t.pend := step_pend_of_not_free htu (by simp [ht])
  refine ⟨ht, htp, hu, hup.trans htp, fun v huv => ⟨fun hnil => ?_, fun hne => ⟨?_, ?_⟩⟩⟩
  · rw [step_lock_of_free huv hu, if_pos hnil]
  · rw [step_lock_of_free huv hu, if_neg hne]
  · obtain ⟨l, hl, hv⟩ := step_pend_of_entry huv hu hne
    exact hv ▸ removeLevel_ne hl

end Sys2Proof.Machine
end

section
/-! ## The RUN flag

No step reads RUN (spec/40_cycle.md R117): two states that differ in RUN only make the same step, but for that flag. -/

namespace Sys2Proof.Machine

variable {s : State}

/-- A result with RUN of its next state blotted out. -/
def hideRun (o : Result) : Result := andThen o fun t => t.setRun false

/-- RUN changes no read of an operand. -/
theorem operandThen_setRun (mode : Mode) (v : Bool) (k : Word → Result) :
    operandThen mode (s.setRun v) k = operandThen mode s k := by
  cases mode <;> rfl

/-- Two uses of the same operand that agree but for RUN. -/
theorem hideRun_operandThen (mode : Mode) (v : Bool) {k k' : Word → Result}
    (h : ∀ w, hideRun (k w) = hideRun (k' w)) :
    hideRun (operandThen mode (s.setRun v) k) = hideRun (operandThen mode s k') := by
  rw [operandThen_setRun, hideRun, hideRun, andThen_operandThen, andThen_operandThen]
  exact congrArg (operandThen mode s) (funext h)

theorem jumpIf_setRun (c : Condition) (target : Word) (v : Bool) :
    hideRun (jumpIf c target (s.setRun v)) = hideRun (jumpIf c target s) := by
  rw [jumpIf_eq, jumpIf_eq]
  rfl

/-- RUN changes nothing else that an instruction does; HLT overwrites it. -/
theorem exec_setRun (i : Instr) (v : Bool) : hideRun (exec i (s.setRun v)) = hideRun (exec i s) := by
  cases i with
  | ldd e | jpi e => exact hideRun_operandThen (.d e) v fun _ => rfl
  | ldi e => exact hideRun_operandThen (.i e) v fun _ => rfl
  | ldm g => exact hideRun_operandThen (.m g) v fun _ => rfl
  | ldf e | jfi e => exact hideRun_operandThen (.f e) v fun _ => rfl
  | ldb e => exact hideRun_operandThen (.b e) v fun _ => rfl
  | zjf _ | nzf _ | pjf _ | njf _ | zjb _ | nzb _ | pjb _ | njb _ => exact jumpIf_setRun _ _ v
  | cil => simp only [exec_cil, beginUnlock_eq]; rfl
  | ldn _ | lcn _ | ldc _ | nop _ | hlt _ | srj _ | sic _ | irj _ | sdc _ | drj _ | sid _ | acj _ | sbu _ => rfl

theorem execReserved_setRun (w : Word) (v : Bool) :
    hideRun (execReserved w (s.setRun v)) = hideRun (execReserved w s) := by
  simp only [execReserved, State.setRun_config]
  cases s.config.illegalPolicy <;> rfl

/-- RUN changes nothing else that ExecuteAtP does. -/
theorem executeAtP_setRun (v : Bool) : hideRun (executeAtP (s.setRun v)) = hideRun (executeAtP s) := by
  cases hb : s.bankExists .r with
  | false => rw [executeAtP_of_missing hb, executeAtP_of_missing (s := s.setRun v) hb, State.setRun_p]
  | true =>
    have hi : (s.setRun v).instrAt s.p = s.instrAt s.p := rfl
    rw [executeAtP_of_exists hb, executeAtP_of_exists (s := s.setRun v) hb, State.setRun_p, hi]
    cases s.instrAt s.p with
    | some i => exact exec_setRun i v
    | none => exact execReserved_setRun _ v

/-- What leaves RUN alone may come before or after RUN is blotted out. -/
theorem hideRun_andThen {f : State → State} (hf : ∀ t, f (t.setRun false) = (f t).setRun false) (o : Result) :
    hideRun (andThen o f) = andThen (hideRun o) f := by
  cases o with
  | next t => exact congrArg Host.Outcome.next (hf t).symm
  | fault _ | refused _ => rfl

theorem advanceUnlock_setRun (l : Lock) (t : State) (v : Bool) :
    advanceUnlock l (t.setRun v) = (advanceUnlock l t).setRun v := by
  cases l <;> rfl

/-- RUN changes nothing else that a step does. -/
theorem step_setRun (s : State) (v : Bool) : hideRun (step (s.setRun v)) = hideRun (step s) := by
  rcases step_cases s with ⟨l, hl, hs, heq⟩ | ⟨hn, heq⟩
  · have hentry : hideRun (executeAtP (enterInterrupt l (s.setRun v))) = hideRun (executeAtP (enterInterrupt l s)) :=
      executeAtP_setRun (s := enterInterrupt l s) v
    have hfinish : ∀ t : State, finishEntry (t.setRun false) = (finishEntry t).setRun false := fun _ => rfl
    rw [heq, step_of_entry (s := s.setRun v) hl hs, hideRun_andThen hfinish, hideRun_andThen hfinish, hentry]
  · have hadvance := fun t => advanceUnlock_setRun s.lock t false
    rw [heq, step_of_no_entry (s := s.setRun v) hn, State.setRun_lock, hideRun_andThen hadvance,
      hideRun_andThen hadvance, executeAtP_setRun]

/-- A step that executes HLT completes, with the lock advanced (R172). -/
theorem step_of_hlt {e : Field} (hn : s.lock ≠ .free ∨ s.pend = []) (hr : s.bsel.r.toNat < s.config.numBanks)
    (hi : s.instrAt s.p = some (.hlt e)) :
    step s = .next (((s.setRun false).advance 1).setLock (if s.lock = .unlockPending then .free else s.lock)) := by
  rw [step_eq_executeAtP hn, executeAtP_of_instr hr hi, exec_hlt]
  rfl

/-- Settles O35: the two steps differ in RUN of their next states only, so they fault alike, and the other value put
back gives the same next state. -/
theorem stepDoesNotReadRun : Obligations.StepDoesNotReadRun := by
  refine ⟨fun s v => ?_, fun s e => step_of_hlt⟩
  have hstep := step_setRun s v
  refine ⟨fun f h => ?_, fun t h => ?_⟩
  · rw [h] at hstep
    exact andThen_fault hstep
  · rw [h] at hstep
    obtain ⟨t', ht', heq⟩ := andThen_next hstep
    exact ⟨t', ht', congrArg (fun u => u.setRun t.run) heq.symm⟩

end Sys2Proof.Machine
end

section
/-! ## Run as repeated step

Run ends by a fault at a boundary where RUN is true (spec/40_cycle.md R120); undisturbed it is `step` repeated
(R118). -/

namespace Sys2Proof.Machine

variable {s t u : State}

/-- Settles O56, by induction on the schedule: a round faults only where RUN is true at the boundary. -/
theorem faultEndsRunWithRunTrue : Obligations.FaultEndsRunWithRunTrue := by
  intro schedule s t f h
  induction schedule generalizing s with
  | nil =>
    rw [runLoop_nil] at h
    cases hr : s.run <;> simp [hr] at h
  | cons ops schedule ih =>
    rcases runLoop_cons_cases ops schedule s with
      ⟨-, hend⟩ | ⟨-, _, -, hend⟩ | ⟨-, -, ⟨-, hend⟩ | ⟨hrun, ⟨_, hstep, hend⟩ | ⟨u, -, hend⟩⟩⟩ <;> rw [hend] at h
    · cases h
    · cases h
    · cases h
    · cases h
      exact ⟨hrun, hstep⟩
    · exact ih u h

/-- One round of Run in which the host does nothing. -/
theorem runLoop_quiet_cases (schedule : List (List HostOp)) (s : State) :
    let ending := (runLoop ([] :: schedule) s).ending
    (s.run = false ∧ ending = .returned s) ∨
    (s.run = true ∧
      ((∃ f, step s = .fault f ∧ ending = .faulted f s) ∨
       ∃ u, step s = .next u ∧ ending = (runLoop schedule u).ending)) := by
  rcases runLoop_cons_cases [] schedule s with
    hstopped | ⟨-, _, hop, -⟩ | ⟨hr, -, ⟨hr', -⟩ | ⟨-, hround⟩⟩
  · exact .inl hstopped
  · cases hop
  · exact absurd (hr.symm.trans hr') nofun
  · exact .inr ⟨hr, hround⟩

/-- The first `n` states of the step sequence from `s`, `s` itself included, exist and have RUN true. -/
def RunsFor (n : Nat) (s : State) : Prop := ∀ j, j < n → ∃ u : State, Sys2Proof.core.run j s = .next u ∧ u.run = true

/-- The ends of R118 for `n` undisturbed rounds from `s`. -/
def EndsAsRepeatedStep (n : Nat) (s : State) : RunEnd → Prop
  | .running t => Sys2Proof.core.run n s = .next t ∧ t.run = true ∧ RunsFor n s
  | .returned t => ∃ k, k ≤ n ∧ Sys2Proof.core.run k s = .next t ∧ t.run = false ∧ RunsFor k s
  | .faulted f t => ∃ k, k < n ∧ Sys2Proof.core.run k s = .next t ∧ step t = .fault f ∧ RunsFor (k + 1) s
  | .refused _ _ | .notAllowed _ _ => False

theorem core_run_succ (hs : step s = .next u) (k : Nat) : Sys2Proof.core.run (k + 1) s = Sys2Proof.core.run k u := by
  have hcore : Sys2Proof.core.step s = .next u := hs
  simp only [Host.Core.run, hcore]

theorem RunsFor.zero (s : State) : RunsFor 0 s := fun _ hj => absurd hj (Nat.not_lt_zero _)

theorem RunsFor.one (hr : s.run = true) : RunsFor 1 s := fun _ hj => Nat.lt_one_iff.1 hj ▸ ⟨s, rfl, hr⟩

theorem RunsFor.succ {n : Nat} (hr : s.run = true) (hs : step s = .next u) (h : RunsFor n u) : RunsFor (n + 1) s := by
  intro j hj
  cases j with
  | zero => exact ⟨s, rfl, hr⟩
  | succ j =>
    rw [core_run_succ hs]
    exact h j (Nat.lt_of_succ_lt_succ hj)

/-- A step with RUN true before an undisturbed run makes it one round longer. -/
theorem EndsAsRepeatedStep.succ {n : Nat} {ending : RunEnd} (hr : s.run = true) (hs : step s = .next u)
    (h : EndsAsRepeatedStep n u ending) : EndsAsRepeatedStep (n + 1) s ending := by
  cases ending with
  | running t =>
    obtain ⟨hrun, htrue, hfor⟩ := h
    exact ⟨(core_run_succ hs n).trans hrun, htrue, hfor.succ hr hs⟩
  | returned t =>
    obtain ⟨k, hk, hrun, hfalse, hfor⟩ := h
    exact ⟨k + 1, Nat.succ_le_succ hk, (core_run_succ hs k).trans hrun, hfalse, hfor.succ hr hs⟩
  | faulted f t =>
    obtain ⟨k, hk, hrun, hfault, hfor⟩ := h
    exact ⟨k + 1, Nat.succ_lt_succ hk, (core_run_succ hs k).trans hrun, hfault, hfor.succ hr hs⟩
  | refused _ _ | notAllowed _ _ => exact h

/-- Undisturbed, Run is repeated step. -/
theorem runLoop_undisturbed (n : Nat) (s : State) :
    EndsAsRepeatedStep n s (runLoop (List.replicate n []) s).ending := by
  induction n generalizing s with
  | zero =>
    rw [List.replicate_zero, runLoop_nil]
    cases hr : s.run with
    | false => exact ⟨0, Nat.le_refl 0, rfl, hr, .zero s⟩
    | true => exact ⟨rfl, hr, .zero s⟩
  | succ n ih =>
    rw [List.replicate_succ]
    rcases runLoop_quiet_cases (List.replicate n []) s with ⟨hr, hend⟩ | ⟨hr, ⟨f, hs, hend⟩ | ⟨u, hs, hend⟩⟩ <;> rw [hend]
    · exact ⟨0, Nat.zero_le _, rfl, hr, .zero s⟩
    · exact ⟨0, Nat.succ_pos n, rfl, hs, .one hr⟩
    · exact (ih u).succ hr hs

/-- Settles O54, by the ends of an undisturbed run. -/
theorem runIsRepeatedStep : Obligations.RunIsRepeatedStep := by
  refine ⟨fun schedule s => runLoop_of_stopped schedule, fun n s => ?_⟩
  have hend := runLoop_undisturbed n s
  generalize (runLoop (List.replicate n []) s).ending = ending at hend
  refine ⟨?_, ?_, ?_, ?_⟩
  · cases ending with
    | running t => exact .inl ⟨t, rfl⟩
    | returned t => exact .inr (.inl ⟨t, rfl⟩)
    | faulted f t => exact .inr (.inr ⟨f, t, rfl⟩)
    | refused _ _ | notAllowed _ _ => exact hend.elim
  · rintro t rfl
    exact hend
  · rintro t rfl
    exact hend
  · rintro f t rfl
    obtain ⟨k, hk, hrun, hfault, hfor⟩ := hend
    exact ⟨k, hk, hrun, hfault, fun j hj => hfor j (Nat.lt_succ_of_le hj)⟩

end Sys2Proof.Machine
end

section
/-! ## The loads

The operand a load takes from memory is one last read through one role: where its bank exists the load completes with
the word read, else it faults with the address (spec/41_load.md R130 to R138). -/

namespace Sys2Proof

variable {e f : Field} {i : Instr} {base : Word}

theorem joinFE_toNat (f e : Field) : (joinFE f e).toNat = f.toNat * 64 + e.toNat := by
  rw [joinFE, BitVec.toNat_append, ← Nat.shiftLeft_add_eq_or_of_lt e.isLt, Nat.shiftLeft_eq]

/-- The words of a function code, counted from the one with `E` = 00. -/
theorem joinFE_eq_add (f e : Field) : joinFE f e = joinFE f 0 + e.setWidth 12 := by
  have hf := f.isLt
  have he := e.isLt
  apply BitVec.eq_of_toNat_eq
  have hzero : (0 : Field).toNat = 0 := rfl
  rw [BitVec.toNat_add, joinFE_toNat, joinFE_toNat, hzero, BitVec.toNat_setWidth]
  omega

/-- A one-word instruction with an `E` field is decoded from the first word of its function code plus `E`. -/
theorem decode_base_add (hi : i.wf = true) (henc : encode i = [joinFE f e]) (hbase : base = joinFE f 0) :
    decode [base + e.setWidth 12] = .ok (i, []) := by
  rw [hbase, ← joinFE_eq_add, ← henc, ← List.append_nil (encode i)]
  exact decodeOfEncode i [] hi

end Sys2Proof

namespace Sys2Proof.Machine

variable {mode : Mode} {role : Role} {addr : Word} {s : State}

/-! ### A load that reads memory -/

theorem State.bankExists_eq_false_iff : s.bankExists role = false ↔ s.config.numBanks ≤ (s.bsel.get role).toNat := by
  rw [← Bool.not_eq_true, State.bankExists_iff, Nat.not_lt]

/-- The operand of a mode is the word that a read through a role gets at an address (R84, spec/20_memory.md R56). -/
def Mode.Reads (mode : Mode) (role : Role) (addr : Word) (s : State) : Prop :=
  ∀ k, operandThen mode s k = readThen role addr s k

theorem Mode.reads_d (e : Field) (s : State) : Reads (.d e) .d (zext12 e) s := fun _ => rfl
theorem Mode.reads_m (g : Word) (s : State) : Reads (.m g) .i g s := fun _ => rfl
theorem Mode.reads_f (e : Field) (s : State) : Reads (.f e) .r (forward s.p e) s := fun _ => rfl
theorem Mode.reads_b (e : Field) (s : State) : Reads (.b e) .r (backward s.p e) s := fun _ => rfl

/-- Where the pointer is read, the operand is at the pointer. -/
theorem Mode.reads_i (hd : s.bsel.d.toNat < s.config.numBanks) (e : Field) :
    Reads (.i e) .i (s.roleCell .d (zext12 e)) s :=
  fun _ => readThen_of_exists ((State.bankExists_iff s .d).2 hd) _ _

theorem loadA_of_exists (hread : mode.Reads role addr s) (hb : (s.bsel.get role).toNat < s.config.numBanks) :
    loadA mode s = .next { s with a := s.roleCell role addr, p := s.p + mode.words } := by
  rw [loadA, hread, readThen_of_exists ((State.bankExists_iff s role).2 hb)]
  rfl

theorem loadA_of_missing (hread : mode.Reads role addr s) (hb : s.config.numBanks ≤ (s.bsel.get role).toNat) :
    loadA mode s = .fault (.addressFault role addr.toNat) := by
  rw [loadA, hread, readThen_of_missing (State.bankExists_eq_false_iff.2 hb)]

theorem zext12_toNat (e : Field) : (zext12 e).toNat = e.toNat := BitVec.toNat_setWidth_of_le (by decide)

/-! ### The complement -/

theorem not_eq_xor (w : Word) : ~~~w = w ^^^ 0o7777 := BitVec.xor_allOnes.symm

theorem not_eq_sub (w : Word) : ~~~w = 0o7777 - w := (BitVec.allOnes_sub_eq_not w).symm

/-! ### The instruction at an address -/

theorem State.instrAt_of_roleCell {w : Word} (h : s.roleCell .r addr = w) :
    s.instrAt addr = decodeFirst w (s.roleCell .r (addr + 1)) := by
  rw [State.instrAt, h]

/-! ### The previous A -/

theorem operandThen_setA (mode : Mode) (s : State) (v : Word) (k : Word → Result) :
    operandThen mode (s.setA v) k = operandThen mode s k := by
  cases mode <;> rfl

/-- No mode takes its operand from A, and the operand replaces every bit of A (R138). -/
theorem loadA_setA (mode : Mode) (s : State) (v : Word) : loadA mode (s.setA v) = loadA mode s :=
  operandThen_setA mode s v _

/-- What a load does, faults included, does not depend on A. -/
theorem exec_setA_of_isLoad {i : Instr} (hi : i.isLoad = true) (s : State) (v : Word) :
    exec i (s.setA v) = exec i s := by
  cases i with
  | ldn e => exact loadA_setA (.n e) s v
  | lcn _ => rfl
  | ldd e => exact loadA_setA (.d e) s v
  | ldi e => exact loadA_setA (.i e) s v
  | ldm g => exact loadA_setA (.m g) s v
  | ldf e => exact loadA_setA (.f e) s v
  | ldc g => exact loadA_setA (.c g) s v
  | ldb e => exact loadA_setA (.b e) s v
  | _ => cases hi

/-! ### The statements about loads -/

/-- Settles O14: a load does the same from the state with the other A. -/
theorem loadsForgetA : Obligations.LoadsForgetA := fun _ v s _ hi h => (exec_setA_of_isLoad hi s v).trans h

/-- Settles O8: the complement of a word is its exclusive or with 7777, and 7777 minus it. -/
theorem loadNoAddressResults : Obligations.LoadNoAddressResults := by
  intro e s
  have hlcn : exec (.lcn e) s = .next { s with a := ~~~(e.setWidth 12), p := s.p + 1 } := rfl
  refine ⟨decode_base_add rfl rfl rfl, rfl, decode_base_add rfl rfl rfl, ?_, ?_⟩
  · rw [hlcn, not_eq_xor]
  · rw [hlcn, not_eq_sub]

/-- Settles O9: one read through d at `E`. -/
theorem loadDirectResult : Obligations.LoadDirectResult := by
  intro e s
  refine ⟨decode_base_add rfl rfl rfl, loadA_of_exists (Mode.reads_d e s), fun hd => ?_⟩
  rw [exec_ldd, loadA_of_missing (Mode.reads_d e s) hd, zext12_toNat]

/-- Settles O10: a missing Direct bank ends the load at the pointer, else the pointer is the address of a read
through i. -/
theorem loadIndirectResult : Obligations.LoadIndirectResult := by
  intro e s
  refine ⟨fun he => decode_base_add (bne_iff_ne.2 he) rfl rfl, fun hd => loadA_of_exists (Mode.reads_i hd e),
    fun hd => ?_, fun hd => loadA_of_missing (Mode.reads_i hd e)⟩
  rw [exec_ldi, loadA, operandThen, readThen_of_missing (State.bankExists_eq_false_iff.2 hd), zext12_toNat]

/-- Settles O11: one read through i at the second word, which ExecuteAtP reads after the first. -/
theorem loadMemoryResult : Obligations.LoadMemoryResult :=
  ⟨fun g s => ⟨rfl, loadA_of_exists (Mode.reads_m g s), loadA_of_missing (Mode.reads_m g s)⟩,
    fun _ hr hw => executeAtP_of_instr hr (State.instrAt_of_roleCell hw)⟩

/-- Settles O12: the operand is the second word, which ExecuteAtP reads after the first. -/
theorem loadConstantResult : Obligations.LoadConstantResult :=
  ⟨fun _ _ => ⟨rfl, rfl⟩, fun _ hr hw => executeAtP_of_instr hr (State.instrAt_of_roleCell hw)⟩

/-- Settles O13: one read through r, `E` after or before P. -/
theorem loadRelativeResults : Obligations.LoadRelativeResults :=
  ⟨fun e s => ⟨fun he => decode_base_add (bne_iff_ne.2 he) rfl rfl, fun he => decode_base_add (bne_iff_ne.2 he) rfl rfl,
    fun hr => ⟨loadA_of_exists (Mode.reads_f e s) hr, loadA_of_exists (Mode.reads_b e s) hr⟩⟩, rfl⟩

end Sys2Proof.Machine
end

section
/-! ## The jumps

A conditional jump completes with P at its target or past the instruction, by the condition on A; a jump through a
pointer gets P from one read through one role (spec/42_jump.md R150 to R160). -/

namespace Sys2Proof.Machine

variable {mode : Mode} {role : Role} {addr : Word} {s : State} {c : Condition} {q : Prop}

/-! ### The conditions on A -/

/-- The sign bit is set from 4000 on (spec/00_scope.md R10). -/
theorem signBit_iff (a : Word) : signBit a = true ↔ 0o4000 ≤ a.toNat := by
  have hmsb : signBit a = a.msb := (BitVec.msb_eq_getLsbD_last a).symm
  rw [hmsb, BitVec.msb_eq_decide, decide_eq_true_iff]

theorem Condition.zero_holds_iff (a : Word) : Condition.zero.holds a = true ↔ a = 0 := beq_iff_eq

theorem Condition.nonZero_holds_iff (a : Word) : Condition.nonZero.holds a = true ↔ a ≠ 0 := bne_iff_ne

theorem Condition.negative_holds_iff (a : Word) : Condition.negative.holds a = true ↔ 0o4000 ≤ a.toNat :=
  signBit_iff a

theorem Condition.positive_holds_iff (a : Word) : Condition.positive.holds a = true ↔ a.toNat < 0o4000 := by
  rw [Condition.holds, Bool.not_eq_true', ← Bool.not_eq_true, signBit_iff, Nat.not_le]

/-- A conditional jump, by a proposition that says when its condition holds. -/
theorem jumpIf_of_iff [Decidable q] (hc : c.holds s.a = true ↔ q) (target : Word) :
    jumpIf c target s = .next { s with p := if q then target else s.p + 1 } := by
  rw [jumpIf_eq, if_congr hc rfl rfl]
  rfl

/-! ### A jump through a pointer -/

theorem jumpVia_of_exists (hread : mode.Reads role addr s) (hb : (s.bsel.get role).toNat < s.config.numBanks) :
    jumpVia mode s = .next { s with p := s.roleCell role addr } := by
  rw [jumpVia, hread, readThen_of_exists ((State.bankExists_iff s role).2 hb)]
  rfl

theorem jumpVia_of_missing (hread : mode.Reads role addr s) (hb : s.config.numBanks ≤ (s.bsel.get role).toNat) :
    jumpVia mode s = .fault (.addressFault role addr.toNat) := by
  rw [jumpVia, hread, readThen_of_missing (State.bankExists_eq_false_iff.2 hb)]

/-! ### The statements about jumps -/

/-- Settles O15: each condition as the statement spells it, and the target `E` after P. -/
theorem forwardConditionalJumps : Obligations.ForwardConditionalJumps := fun e s =>
  ⟨decode_base_add rfl rfl rfl, jumpIf_of_iff (Condition.zero_holds_iff s.a) (forward s.p e),
    decode_base_add rfl rfl rfl, jumpIf_of_iff (Condition.nonZero_holds_iff s.a) (forward s.p e),
    decode_base_add rfl rfl rfl, jumpIf_of_iff (Condition.positive_holds_iff s.a) (forward s.p e),
    decode_base_add rfl rfl rfl, jumpIf_of_iff (Condition.negative_holds_iff s.a) (forward s.p e)⟩

/-- Settles O16: each condition as the statement spells it, and the target `E` before P. -/
theorem backwardConditionalJumps : Obligations.BackwardConditionalJumps := fun e s =>
  ⟨decode_base_add rfl rfl rfl, jumpIf_of_iff (Condition.zero_holds_iff s.a) (backward s.p e),
    decode_base_add rfl rfl rfl, jumpIf_of_iff (Condition.nonZero_holds_iff s.a) (backward s.p e),
    decode_base_add rfl rfl rfl, jumpIf_of_iff (Condition.positive_holds_iff s.a) (backward s.p e),
    decode_base_add rfl rfl rfl, jumpIf_of_iff (Condition.negative_holds_iff s.a) (backward s.p e)⟩

/-- Settles O17: one read through d at `E`. -/
theorem jumpIndirectResult : Obligations.JumpIndirectResult := by
  refine ⟨fun e s => ⟨fun he => decode_base_add (bne_iff_ne.2 he) rfl rfl, jumpVia_of_exists (Mode.reads_d e s),
    fun hd => ?_⟩, rfl⟩
  rw [exec_jpi, jumpVia_of_missing (Mode.reads_d e s) hd, zext12_toNat]

/-- Settles O18: one read through r, `E` after P. -/
theorem jumpForwardIndirectResult : Obligations.JumpForwardIndirectResult :=
  ⟨fun e s => ⟨fun he => decode_base_add (bne_iff_ne.2 he) rfl rfl, jumpVia_of_exists (Mode.reads_f e s)⟩, rfl⟩

end Sys2Proof.Machine
end

section
/-! ## The control instructions

NOP, HLT and CIL always complete, so a normal step of one is its effect and the lock advance (spec/43_control.md R170,
R172, R174; spec/40_cycle.md R115). -/

namespace Sys2Proof

variable {f : Field} {b : BitVec 3} {x : BankNo} {i : Instr} {base : Word}

theorem joinFSX_toNat (f : Field) (b : BitVec 3) (x : BankNo) :
    (joinFSX f b x).toNat = f.toNat * 64 + (b.toNat * 8 + x.toNat) := by
  rw [joinFSX, ← joinFE, joinFE_toNat, BitVec.toNat_append, ← Nat.shiftLeft_add_eq_or_of_lt x.isLt, Nat.shiftLeft_eq]

/-- The words of a function code and an `S`, counted from the one with `X` = 0. -/
theorem joinFSX_eq_add (f : Field) (b : BitVec 3) (x : BankNo) : joinFSX f b x = joinFSX f b 0 + x.setWidth 12 := by
  have hf := f.isLt
  have hb := b.isLt
  have hx := x.isLt
  have hzero : (0 : BankNo).toNat = 0 := rfl
  apply BitVec.eq_of_toNat_eq
  rw [BitVec.toNat_add, joinFSX_toNat, joinFSX_toNat, hzero, BitVec.toNat_setWidth]
  omega

/-- An instruction with an `X` field is decoded from the first word of its group plus `X`. -/
theorem decode_base_add_bank (hi : i.wf = true) (henc : encode i = [joinFSX f b x]) (hbase : base = joinFSX f b 0) :
    decode [base + x.setWidth 12] = .ok (i, []) := by
  rw [hbase, ← joinFSX_eq_add, ← henc, ← List.append_nil (encode i)]
  exact decodeOfEncode i [] hi

theorem encode_nop (x : BankNo) : encode (.nop x) = [x.setWidth 12] := by
  rw [encode, joinFSX_eq_add]
  exact congrArg (fun w => [w]) (BitVec.zero_add _)

end Sys2Proof

namespace Sys2Proof.Machine

variable {i : Instr} {s t : State} {w addr : Word} {l : Nat}

/-! ### One step of a given instruction -/

/-- The cell that holds a one-word instruction names it, whatever stands in the next cell (R82). -/
theorem State.instrAt_of_encode (hi : i.wf = true) (henc : encode i = [w]) (hcell : s.roleCell .r addr = w) :
    s.instrAt addr = some i := by
  rw [State.instrAt_of_roleCell hcell]
  exact decodeFirst_encode hi henc _

/-- A normal step of an instruction that completes ends with the lock advance (R115). -/
theorem step_of_exec_next (hn : s.lock ≠ .free ∨ s.pend = []) (hr : s.bsel.r.toNat < s.config.numBanks)
    (hi : s.instrAt s.p = some i) (he : exec i s = .next t) :
    step s = .next (t.setLock (if s.lock = .unlockPending then .free else t.lock)) := by
  rw [step_eq_executeAtP hn, executeAtP_of_instr hr hi, he, andThen]

/-- An entry whose slot holds an instruction that completes ends LOCKED (R243). -/
theorem step_of_slot_exec_next (hl : s.lock = .free) (hs : select s.config.priority s.pend = some l)
    (hr : s.bsel.r.toNat < s.config.numBanks) (hi : s.instrAt s.fetchAddr = some i)
    (he : exec i (enterInterrupt l s) = .next t) : step s = .next (t.setLock .locked) := by
  rw [fetchAddr_of_entry hl hs] at hi
  rw [step_of_entry hl hs, executeAtP_of_instr (s := enterInterrupt l s) hr hi, he, andThen, finishEntry]

/-! ### CIL -/

/-- CIL writes LOCK and P only (R174). -/
theorem exec_cil_eq (s : State) :
    exec .cil s = .next { s with lock := if s.lock = .locked then .unlockPending else s.lock, p := s.p + 1 } := by
  rw [exec_cil, beginUnlock_eq]
  rfl

/-- The lock at the end of a normal step of CIL: the clear, then the advance. -/
theorem advance_cil_lock (lock0 : Lock) :
    (if lock0 = .unlockPending then Lock.free else if lock0 = .locked then .unlockPending else lock0) =
      if lock0 = .locked then .unlockPending else .free := by
  cases lock0 <;> rfl

/-- A normal step of CIL. -/
theorem step_of_cil (hn : s.lock ≠ .free ∨ s.pend = []) (hr : s.bsel.r.toNat < s.config.numBanks)
    (hi : s.instrAt s.p = some .cil) :
    step s = .next { s with p := s.p + 1, lock := if s.lock = .locked then .unlockPending else .free } := by
  rw [step_of_exec_next hn hr hi (exec_cil_eq s), ← advance_cil_lock]
  rfl

/-! ### The statements about control -/

/-- Settles O19: P passes the one word, then the lock advances. -/
theorem nopResult : Obligations.NopResult := by
  refine ⟨rfl, fun x s => ⟨fun hx => ?_, exec_nop x s⟩, fun x s hx hn hr hcell => ?_⟩
  · have hdecode : decode [0#12 + x.setWidth 12] = .ok (.nop x, []) :=
      decode_base_add_bank (bne_iff_ne.2 hx) rfl rfl
    rwa [BitVec.zero_add] at hdecode
  · have hi : s.instrAt s.p = some (.nop x) := State.instrAt_of_encode (bne_iff_ne.2 hx) (encode_nop x) hcell
    exact step_of_exec_next hn hr hi (exec_nop x s)

/-- Settles O20: both words name HLT, and Run makes no cycle from a state with RUN false. -/
theorem haltResult : Obligations.HaltResult := by
  refine ⟨rfl, rfl, exec_hlt, fun s hn hr hcell => ?_, fun s t e schedule h => ?_⟩
  · rcases hcell with hcell | hcell <;> exact step_of_hlt hn hr (State.instrAt_of_roleCell hcell)
  · have hrun : t.run = false := by
      cases h
      rfl
    exact runLoop_of_stopped schedule hrun

/-- Settles O21: the lock after a normal step of CIL in each lock state, and the end of an entry, which overwrites
it. -/
theorem clearInterruptLockResult : Obligations.ClearInterruptLockResult := by
  refine ⟨rfl, exec_cil_eq, fun s hn hr hcell => ?_, fun s hl hne hr hcell => ?_⟩
  · have hi : s.instrAt s.p = some .cil := State.instrAt_of_roleCell hcell
    refine ⟨step_of_cil hn hr hi, fun t u hlocked hst htu => step_lock_of_unlockPending htu ?_⟩
    rw [step_lock_of_locked hst hlocked, if_pos hi]
  · obtain ⟨l, hs⟩ := select_isSome hne s.config.priority
    have hi : s.instrAt s.fetchAddr = some .cil := State.instrAt_of_roleCell hcell
    exact ⟨_, step_of_slot_exec_next hl hs hr hi (exec_cil_eq _), rfl⟩

end Sys2Proof.Machine
end

section
/-! ## The bank setters

A setter always completes, whatever bank it names; those that write the Relative select are the four that jump to A
(spec/44_bank.md R180 to R188). -/

namespace Sys2Proof.Machine

variable {i : Instr} {s t : State}

/-! ### The Relative select -/

/-- The instructions that write the Relative select are setters that jump: the column `r` of the table of R188(e). -/
theorem exec_eq_setAndJump (hr : .r ∈ writtenSelects i) (s : State) :
    ∃ x, exec i s = setAndJump (writtenSelects i) x s := by
  cases i with
  | srj x => exact ⟨x, exec_srj x s⟩
  | irj x => exact ⟨x, exec_irj x s⟩
  | drj x => exact ⟨x, exec_drj x s⟩
  | acj x => exact ⟨x, exec_acj x s⟩
  | _ => simp [writtenSelects] at hr

/-- A setter that jumps sets P from A and keeps A (R188). -/
theorem setAndJump_next {roles : List Role} {x : BankNo} (h : setAndJump roles x s = .next t) :
    t.p = s.a ∧ t.a = s.a := by
  cases h
  exact ⟨rfl, by rw [State.setP_a, setSelects_frame]⟩

/-- Only an instruction that jumps to A can change the Relative select. -/
theorem exec_jumps_of_relative_changed (h : exec i s = .next t) (hr : t.bsel.r ≠ s.bsel.r) :
    t.p = s.a ∧ t.a = s.a := by
  have hw : .r ∈ writtenSelects i := by
    by_contra hw
    exact hr ((exec_frame h).bsel .r hw)
  obtain ⟨x, hx⟩ := exec_eq_setAndJump hw s
  exact setAndJump_next (hx ▸ h)

theorem executeAtP_jumps_of_relative_changed (h : executeAtP s = .next t) (hr : t.bsel.r ≠ s.bsel.r) :
    t.p = s.a ∧ t.a = s.a := by
  obtain ⟨_, hi, -⟩ := executeAtP_next h
  exact exec_jumps_of_relative_changed hi hr

/-! ### The statements about the setters -/

/-- Settles O24: taking an interrupt before the instruction writes PEND and P only, and the end of a step LOCK only, so
the instruction executed made the change. -/
theorem relativeSelectChangesOnlyWithJumpToA : Obligations.RelativeSelectChangesOnlyWithJumpToA := by
  intro s t h hr
  rcases step_next_cases h with ⟨l, u, -, -, hu, rfl⟩ | ⟨-, u, hu, rfl⟩
  · exact (executeAtP_jumps_of_relative_changed hu hr :)
  · exact (executeAtP_jumps_of_relative_changed hu hr :)

/-- Settles O22: the words by the round trip of the encoder, the effects by the arms of `exec`. -/
theorem settersThatContinue : Obligations.SettersThatContinue := fun x s =>
  ⟨decode_base_add_bank rfl rfl rfl, exec_sic x s, decode_base_add_bank rfl rfl rfl, exec_sdc x s,
    decode_base_add_bank rfl rfl rfl, exec_sid x s, decode_base_add_bank rfl rfl rfl, exec_sbu x s⟩

/-- Settles O23: the words by the round trip of the encoder, the effects by the arms of `exec`. -/
theorem settersThatJump : Obligations.SettersThatJump := fun x s =>
  ⟨decode_base_add_bank rfl rfl rfl, exec_srj x s, decode_base_add_bank rfl rfl rfl, exec_irj x s,
    decode_base_add_bank rfl rfl rfl, exec_drj x s, decode_base_add_bank rfl rfl rfl, exec_acj x s⟩

end Sys2Proof.Machine
end

section
/-! ## The host's operations

What each operation of the host completes with or faults with (spec/50_host_interface.md R200 to R213), and STOP at a
boundary of Run (R212). -/

namespace Sys2Proof.Machine

variable {s t : State}

/-! ### Requests, STEP and STOP -/

theorem perform_requestInterrupt_valid {l : Nat} (h : l ∈ s.config.levels) :
    perform (.requestInterrupt l) s = .next (.done, s.setPend (insertLevel l s.pend)) := by
  simp only [perform, hostRequest, h, if_true]

theorem perform_step_of_next (h : step s = .next t) : perform .step s = .next (.done, t) := by
  simp only [perform, hostStep, h]

theorem perform_step_of_fault {f : Fault} (h : step s = .fault f) : perform .step s = .fault f := by
  simp only [perform, hostStep, h]

/-- A session that ends with STOP leaves RUN false. -/
theorem session_stop_run (ops : List HostOp) (s : State) : (session (ops ++ [.stop]) s).state.run = false := by
  rw [session_append]
  rfl

/-- Run returns at the first boundary where the host, by operations it is allowed, leaves RUN false (R118, R119). -/
theorem runLoop_returned_of_boundary {ops : List HostOp} (schedule : List (List HostOp)) (hr : s.run = true)
    (h : ∀ op ∈ ops, op.allowedDuringRun = true) (hstop : (session ops s).state.run = false) :
    (runLoop (ops :: schedule) s).ending = .returned (session ops s).state := by
  rw [runLoop_of_allowed schedule hr h]
  simp only [hstop, Bool.false_eq_true, if_false]

/-! ### The statements about single operations -/

/-- Settles O47: where the access is admitted the next state is the one with the cell inserted in memory. -/
theorem writeChangesOneCell : Obligations.WriteChangesOneCell := by
  refine fun role addr v s => ⟨fun h => ?_, fun h => ?_⟩
  · have hw := perform_write_of_admits v (h.symm : s.Admits role addr)
    exact ⟨_, hw, State.cell_write_same .., fun bank a hne => State.cell_write_other s hne _, rfl⟩
  · exact perform_write_of_not_admits v fun hadmits => h hadmits.symm

/-- Settles O48, by the two cases of the admission (R51). -/
theorem readReturnsTheSelectedCell : Obligations.ReadReturnsTheSelectedCell := by
  intro role addr s
  split
  case isTrue h => exact perform_read_of_admits h.symm
  case isFalse h => exact perform_read_of_not_admits fun hadmits => h hadmits.symm

/-- Settles O50: SET_BANK writes one select (R28), read back as the number's three low bits. -/
theorem setBankStoresModuloEight : Obligations.SetBankStoresModuloEight := by
  intro role n s
  have hget : (hostSetBank role n s).bsel.get role = BitVec.ofNat 3 n := BankSelects.get_set_same ..
  refine ⟨hostSetBank role n s, rfl, ?_, ?_, fun role' hne => BankSelects.get_set_other _ hne _, rfl⟩
  · simp only [perform, hget]
  · rw [hget, BitVec.toNat_ofNat]

/-- Settles O51, by the definitions of the four operations. -/
theorem setPcAndSetATruncate : Obligations.SetPcAndSetATruncate := fun _ _ => ⟨rfl, rfl, rfl, rfl⟩

/-- Settles O52: a valid level is inserted in PEND, which in canonical form absorbs a level it has (R33). -/
theorem requestAddsAValidLevel : Obligations.RequestAddsAValidLevel := by
  refine fun l s => ⟨perform_requestInterrupt_invalid, fun h => ?_⟩
  refine ⟨_, perform_requestInterrupt_valid h, fun l' => mem_insertLevel l l' s.pend, fun hinv hl => ?_, rfl⟩
  rw [insertLevel_of_mem hinv.pend.1 hl]
  rfl

/-- Settles O53, by the definitions of the four operations. -/
theorem consoleFlagOperations : Obligations.ConsoleFlagOperations := fun _ => ⟨rfl, rfl, rfl, rfl⟩

/-- Settles O58: STEP answers as a step does, and no step refuses. -/
theorem hostStepIsOneStep : Obligations.HostStepIsOneStep := by
  refine fun s => ⟨fun t => perform_step_of_next, fun f => perform_step_of_fault, ?_⟩
  cases h : step s with
  | next t => exact .inl ⟨t, perform_step_of_next h⟩
  | fault f => exact .inr ⟨f, perform_step_of_fault h⟩
  | refused e => exact absurd h step_ne_refused

/-! ### STOP at a boundary of Run -/

/-- Settles O55: after STOP the boundary has RUN false, so Run returns with its state, in which the host has changed
PEND and RUN only. -/
theorem stopEndsRunBeforeTheNextFetch : Obligations.StopEndsRunBeforeTheNextFetch := by
  refine ⟨fun _ => rfl, fun ops schedule s hops hr => ?_⟩
  have hallowed : ∀ op ∈ ops ++ [HostOp.stop], op.allowedDuringRun = true := by
    intro op hop
    rcases List.mem_append.1 hop with hop | hop
    · exact hops op hop
    · rw [List.mem_singleton.1 hop]
      rfl
  have hstop := session_stop_run ops s
  have hframe := session_of_allowed hallowed s
  rw [hr] at hframe
  exact ⟨_, runLoop_returned_of_boundary schedule hr hallowed hstop, hstop, hframe⟩

end Sys2Proof.Machine
end

section
/-! ## The arbiter and interrupt entry

Which pending level the arbiter selects (spec/60_exceptions.md R241), and the step that enters it (R242 to R245). -/

namespace Sys2Proof.Machine

variable {s t : State} {l : Nat} {pend : List Nat}

/-! ### The arbiter -/

/-- The default policy selects the lowest level. -/
theorem select_lowestFirst_le (h : select .lowestFirst pend = some l) : ∀ l' ∈ pend, l ≤ l' :=
  (List.min?_eq_some_iff.1 h).2

/-- A table's row for the pending set is followed where its level is pending (log entry 4). -/
theorem select_byTable_of_mem {rows : List (List Nat × Nat)} (hrow : rows.lookup pend = some l) (hl : l ∈ pend) :
    select (.byTable rows) pend = some l := by
  simp only [select, policyChoice, hrow, hl, if_true]

/-- Settles O29: something pending is always selected, and what is selected is pending. -/
theorem arbiterSelectsAMember : Obligations.ArbiterSelectsAMember := by
  refine fun pend hne => ⟨fun policy => ?_, ?_, fun rows l => select_byTable_of_mem⟩
  · obtain ⟨l, hs⟩ := select_isSome hne policy
    exact ⟨l, hs, select_mem hs⟩
  · obtain ⟨l, hs⟩ := select_isSome hne .lowestFirst
    exact ⟨l, hs, select_mem hs, select_lowestFirst_le hs⟩

/-! ### The entry -/

/-- An entry that completes has removed the selected level from PEND, and nothing else from it (R243). -/
theorem step_pend_of_selected (h : step s = .next t) (hl : s.lock = .free)
    (hs : select s.config.priority s.pend = some l) : t.pend = removeLevel l s.pend := by
  rw [step_of_entry hl hs] at h
  obtain ⟨u, hu, rfl⟩ := andThen_next h
  exact executeAtP_pend hu

/-- Settles O28: an entry is ExecuteAtP in the vector slot, and ExecuteAtP is the instruction the slot's words decode
to. -/
theorem stepEntersTheSelectedInterrupt : Obligations.StepEntersTheSelectedInterrupt := by
  refine ⟨fun s l hl hs => step_of_entry hl hs, fun s l i rest hl hs hr hd => ?_⟩
  rw [step_of_entry hl hs, executeAtP_of_instr (s := enterInterrupt l s) hr (decodeFirst_of_decode hd)]
  rfl

/-- Settles O30: PEND after the entry is the old set without the selected level. -/
theorem entryRemovesOneLevelAndLocks : Obligations.EntryRemovesOneLevelAndLocks := by
  intro s t hl hne h
  obtain ⟨l, hs⟩ := select_isSome hne s.config.priority
  have hlock : t.lock = .locked := by rw [step_lock_of_free h hl, if_neg hne]
  have hmem : ∀ l', l' ∈ t.pend ↔ l' ∈ s.pend ∧ l' ≠ l := by
    rw [step_pend_of_selected h hl hs]
    exact fun l' => mem_removeLevel l l' s.pend
  exact ⟨hlock, l, select_mem hs, hs, by simp [hmem], fun l' hl' => by simp [hmem, hl']⟩

end Sys2Proof.Machine
end

section
/-! ## The first fault of a step

A step reads through r where it fetches, decodes, and reads the operand: the first of these to fault ends it
(spec/60_exceptions.md R230 to R236). -/

namespace Sys2Proof.Machine

variable {s : State} {i : Instr} {f : Fault} {e : Field}

/-! ### What a step executes -/

/-- Both kinds of step are ExecuteAtP where the step fetches, and then an end that only a completed one reaches. -/
theorem step_eq_andThen (s : State) :
    ∃ pend finish, step s = andThen (executeAtP { s with pend := pend, p := s.fetchAddr }) finish := by
  rcases step_cases s with ⟨l, hl, hs, heq⟩ | ⟨hn, heq⟩
  · rw [fetchAddr_of_entry hl hs]
    exact ⟨removeLevel l s.pend, finishEntry, heq⟩
  · rw [fetchAddr_of_no_entry hn]
    exact ⟨s.pend, advanceUnlock s.lock, heq⟩

theorem step_of_executeAtP_fault (h : ∀ pend, executeAtP { s with pend := pend, p := s.fetchAddr } = .fault f) :
    step s = .fault f := by
  obtain ⟨pend, finish, heq⟩ := step_eq_andThen s
  rw [heq, h, andThen]

/-- The fault of the instruction fetched is the step's. -/
theorem step_of_exec_fault (hr : s.bsel.r.toNat < s.config.numBanks) (hi : s.instrAt s.fetchAddr = some i)
    (h : ∀ pend, exec i { s with pend := pend, p := s.fetchAddr } = .fault f) : step s = .fault f :=
  step_of_executeAtP_fault fun pend =>
    (executeAtP_of_instr (s := { s with pend := pend, p := s.fetchAddr }) hr hi).trans (h pend)

/-- The instructions that read through d first fault there where the Direct bank is missing (R59, R60). -/
theorem exec_of_direct_missing (hd : s.config.numBanks ≤ s.bsel.d.toNat)
    (hi : i = .ldd e ∨ i = .ldi e ∨ i = .jpi e) : exec i s = .fault (.addressFault .d e.toNat) := by
  have hread : ∀ k, readThen .d (zext12 e) s k = .fault (.addressFault .d e.toNat) := fun k => by
    rw [readThen_of_missing (State.bankExists_eq_false_iff.2 hd), zext12_toNat]
  rcases hi with rfl | rfl | rfl
  · exact hread _
  · exact hread _
  · exact hread _

/-- Where only the Indirect bank is missing, LDI has read its pointer and faults there (R59, R60). -/
theorem exec_ldi_of_indirect_missing (hd : s.bsel.d.toNat < s.config.numBanks)
    (hb : s.config.numBanks ≤ s.bsel.i.toNat) :
    exec (.ldi e) s = .fault (.addressFault .i (s.cell s.bsel.d (zext12 e)).toNat) :=
  loadA_of_missing (Mode.reads_i hd e) hb

/-! ### The statements about faults of a step -/

/-- Settles O37: the fetch's fault, then the decode's, then that of the read through d or i. -/
theorem firstFaultIsReported : Obligations.FirstFaultIsReported := by
  refine fun s => ⟨fun hr => ?_, fun hr => ⟨fun hi hp => step_of_reserved_fault hp hr hi, fun e hd hi => ?_,
    fun e hd hb hi => ?_, fun g hb hi => ?_⟩⟩
  · exact step_of_executeAtP_fault fun _ => executeAtP_of_missing (State.bankExists_eq_false_iff.2 hr)
  · rcases hi with hi | hi | hi
    · exact step_of_exec_fault hr hi fun _ => exec_of_direct_missing hd (.inl rfl)
    · exact step_of_exec_fault hr hi fun _ => exec_of_direct_missing hd (.inr (.inl rfl))
    · exact step_of_exec_fault hr hi fun _ => exec_of_direct_missing hd (.inr (.inr rfl))
  · exact step_of_exec_fault hr hi fun _ => exec_ldi_of_indirect_missing hd hb
  · exact step_of_exec_fault hr hi fun _ => loadA_of_missing (Mode.reads_m g _) hb

/-- Settles O38: the codes by definition, and the two kinds of fault a step has. -/
theorem stepFaultsAreTheSpecs : Obligations.StepFaultsAreTheSpecs := by
  refine ⟨fun _ _ => rfl, fun _ _ => rfl, fun _ => rfl, fun s => ⟨fun _ => step_ne_refused, fun f h => ?_⟩⟩
  rcases step_fault h with ⟨role, addr, hf, hrole, hmissing⟩ | hreserved
  · exact .inl ⟨role, addr, hf, hrole, State.bankExists_eq_false_iff.1 hmissing⟩
  · exact .inr hreserved

end Sys2Proof.Machine
end

section
/-! ## What the host is told

Every operation of a session is reported in its place, and a boundary of Run is told as a session is
(spec/60_exceptions.md R231, R232; spec/50_host_interface.md R215). -/

namespace Sys2Proof.Machine

variable {s : State}

/-- Everything an operation carried out can come to: its reply and the next state, or why it stopped and the state as
it was. -/
theorem respond_cases (op : HostOp) (s : State) :
    (∃ v t, perform op s = .next (v, t) ∧ respond op s = (.reply v, t)) ∨
    (∃ f, perform op s = .fault f ∧ respond op s = (.fault f, s)) ∨
    (∃ e, perform op s = .refused e ∧ respond op s = (.refused e, s)) := by
  cases h : perform op s with
  | next answer => exact .inl ⟨answer.1, answer.2, rfl, respond_of_next h⟩
  | fault f => exact .inr (.inl ⟨f, rfl, respond_of_fault h⟩)
  | refused e => exact .inr (.inr ⟨e, rfl, by simp only [respond, h]⟩)

/-- An operation's report stands in a session where the operation does. -/
theorem session_report_at (ops ops' : List HostOp) (op : HostOp) (s : State) :
    (session (ops ++ op :: ops') s).reports[ops.length]? = some (respond op (session ops s).state).1 := by
  rw [session_append, List.getElem?_append_right (session_reports_length ops s).le]
  simp

theorem session_concat_state (ops : List HostOp) (op : HostOp) (s : State) :
    (session (ops ++ [op]) s).state = (respond op (session ops s).state).2 := by
  rw [session_append]
  rfl

/-- At its first boundary Run tells the host what a session of the same operations does (R119). -/
theorem runLoop_reports_head {ops : List HostOp} (schedule : List (List HostOp)) (hr : s.run = true)
    (h : ∀ op ∈ ops, op.allowedDuringRun = true) :
    (runLoop (ops :: schedule) s).reports.head? = some (session ops s).reports := by
  rw [runLoop_of_allowed schedule hr h]
  split
  · split <;> rfl
  · rfl

/-- A request outside LEVELS is told its fault in its place, after operations that cannot change the parameters
(R206). -/
theorem session_report_of_invalid_request {ops : List HostOp} {l : Nat} (ops' : List HostOp)
    (h : ∀ op ∈ ops, op.allowedDuringRun = true) (hl : l ∉ s.config.levels) :
    (session (ops ++ .requestInterrupt l :: ops') s).reports[ops.length]? =
      some (.fault (.invalidInterruptLevel l)) := by
  have hconfig : (session ops s).state.config = s.config := (congrArg State.config (session_of_allowed h s) :)
  rw [← hconfig] at hl
  rw [session_report_at, respond_of_fault (perform_requestInterrupt_invalid hl)]

/-- Settles O59: a session reports each operation in its place, and a boundary of Run is told as a session is. -/
theorem everyFaultIsReported : Obligations.EveryFaultIsReported := by
  refine ⟨fun ops ops' op s => ?_, fun ops schedule s hr h => runLoop_reports_head schedule hr h,
    fun ops ops' l schedule s hr h hl => ?_⟩
  · rw [session_report_at, session_concat_state]
    rcases respond_cases op (session ops s).state with
      ⟨v, t, hp, ht⟩ | ⟨f, hp, ht⟩ | ⟨e, hp, ht⟩ <;> rw [hp, ht] <;> exact ⟨rfl, rfl⟩
  · obtain ⟨hops, hops'⟩ := List.forall_mem_append.1 h
    have hallowed : ∀ op ∈ ops ++ .requestInterrupt l :: ops', op.allowedDuringRun = true :=
      List.forall_mem_append.2 ⟨hops, List.forall_mem_cons.2 ⟨rfl, hops'⟩⟩
    exact ⟨_, runLoop_reports_head schedule hr hallowed, session_report_of_invalid_request ops' hops hl⟩

end Sys2Proof.Machine
end
